-- ==== Sys2Proof/Word.lean ====
section
/-! DEFINITION. The 16-bit word of the engine (spec/00_scope.md R5 `XLEN`, R6). -/

namespace Sys2Proof

/-- A register, a memory cell, a label value, the flag and an instruction word are all 16-bit
patterns (R6); bit 0 is the least significant bit. -/
abbrev Word := BitVec 16

end Sys2Proof
end

