-- ==== Sys2Proof/Config.lean ====
section
/-! DEFINITION. The parameters of the engine (spec/00_scope.md R5). -/

namespace Sys2Proof.Config

/-- `MEM_CELLS`: number of data-memory cells, addresses 0 to 65535 (R5, R15). -/
def memCells : Nat := 65536

/-- `NLABELS`: number of symbol-table entries, identifiers 0 to 511 (R5, decision D3). -/
def numLabels : Nat := 512

/-- `IMM_MIN`: smallest arithmetic immediate (R5). -/
def immMin : Int := -16

/-- `IMM_MAX`: largest arithmetic immediate (R5). -/
def immMax : Int := 15

/-- `HALT_VECTOR`: the only meaningful trap vector, 0x25 (R5, R116, conflict C1, decision D6). -/
def haltVector : Nat := 0x25

/-- `PROG_MAX`: the largest number of instructions a program store may hold (R5, decision D5). -/
def progMax : Nat := 32768

/-- The smallest value of the program counter (R5 `PC_RANGE`, R12, decision D4). -/
def pcMin : Int := -32768

/-- The largest value of the program counter (R5 `PC_RANGE`, R12, decision D4). -/
def pcMax : Int := 32768

/-- `FLAG_RESET`, OPEN in the spec (R5, R13, R21, decision D7, which recommends 0).
DESIGN CHOICE, unsafe (notes/assumptions/1.md): the value `State.reset` gives the flag.
Statements about reset are made of `State.resetWith`, for every value. -/
def flagReset : Word := 0

end Sys2Proof.Config
end

