-- ==== Sys2Proof/Syntax.lean ====
section
/-! DEFINITION. The instructions: one constructor per row of spec/opcode_table.json, with the operands
of the abstract variant of spec/30_encoding.md R50. -/

namespace Sys2Proof

/-- A general register index, 0 to 7 and nothing else (spec/10_state.md R11). -/
abbrev Reg := Fin 8

/-- A label identifier, 0 to 511 (spec/10_state.md R14, spec/30_encoding.md R55): an identity, not an
offset and not an address. -/
abbrev Label := Fin 512

/-- A branch condition: a subset of the set of n, z, p (spec/30_encoding.md R66). -/
structure Cond where
  /-- The condition holds the primitive N. -/
  n : Bool
  /-- The condition holds the primitive Z. -/
  z : Bool
  /-- The condition holds the primitive P. -/
  p : Bool
deriving DecidableEq, Repr

/-- An instruction (spec/30_encoding.md R50). `Branch(condition, label)` has one constructor for each of
its eight condition forms, because the opcode table has a row for each (R66, R92 to R99). -/
inductive Instr where
  /-- `AddReg(dest, src1, src2)`: ADD, register form (R81). -/
  | addReg (dest src1 src2 : Reg)
  /-- `AddImm(dest, src1, imm)`: ADD, immediate form (R82); legal for `imm` in -16 to 15. -/
  | addImm (dest src1 : Reg) (imm : Int)
  /-- `AndReg(dest, src1, src2)`: AND, register form (R83). -/
  | andReg (dest src1 src2 : Reg)
  /-- `AndImm(dest, src1, imm)`: AND, immediate form (R84); legal for `imm` in -16 to 15. -/
  | andImm (dest src1 : Reg) (imm : Int)
  /-- `Not(dest, src)`: NOT (R85). -/
  | notReg (dest src : Reg)
  /-- `Branch({}, label)`: BR, the unconditional form (R92). -/
  | br (label : Label)
  /-- `Branch({n}, label)`: BRn (R93). -/
  | brn (label : Label)
  /-- `Branch({z}, label)`: BRz (R94). -/
  | brz (label : Label)
  /-- `Branch({p}, label)`: BRp (R95). -/
  | brp (label : Label)
  /-- `Branch({n, z}, label)`: BRnz (R96). -/
  | brnz (label : Label)
  /-- `Branch({z, p}, label)`: BRzp (R97). -/
  | brzp (label : Label)
  /-- `Branch({n, p}, label)`: BRnp (R98). -/
  | brnp (label : Label)
  /-- `Branch({n, z, p}, label)`: BRnzp (R99). -/
  | brnzp (label : Label)
  /-- `Load(dest, label)`: LD (R105). -/
  | ld (dest : Reg) (label : Label)
  /-- `LoadIndirect(dest, label)`: LDI (R106). -/
  | ldi (dest : Reg) (label : Label)
  /-- `Store(src, label)`: ST (R107). -/
  | st (src : Reg) (label : Label)
  /-- `StoreIndirect(src, label)`: STI (R108). -/
  | sti (src : Reg) (label : Label)
  /-- `Trap(vector)`: TRAP x25, HALT (R115); legal for `vector = HALT_VECTOR` only (R117, C11). -/
  | trap (vector : Nat)
deriving DecidableEq, Repr

end Sys2Proof
end

