-- ==== Sys2Proof/Machine/State.lean ====
section
/-! DEFINITION. The state of the engine as plain data: the tuple `(x[0..7], pc, FLAG, SYM, MEM, PROG, RUN,
FAULT)` of spec/10_state.md, nothing more (R19) and nothing less. -/

namespace Sys2Proof.Machine

/-- The run state `RUN` (spec/10_state.md R17). -/
inductive RunState where
  /-- Between reset and `beginExecution`: the host builds PROG and SYM and seeds MEM. -/
  | loading
  /-- The engine executes instructions. -/
  | running
  /-- A TRAP x25 was executed: the normal end of a run. -/
  | halted
  /-- A fault ended the run, or a configuration error ended the load phase. -/
  | faulted
deriving DecidableEq, Repr

/-- The kind of a fault, `FAULT.kind` (spec/60_exceptions.md R120). -/
inductive FaultKind where
  /-- No fault recorded. -/
  | none
  /-- A malformed configuration: an illegal instruction, an argument out of range (R121). -/
  | configurationError
  /-- The instruction's label is not bound when it executes (R122). -/
  | unboundLabel
  /-- The program counter names an index that holds no instruction (R123). -/
  | outOfRange
  /-- The value of the label used as an address is negative (R124, decision D8). -/
  | badAddress
deriving DecidableEq, Repr

/-- What `FAULT.info` holds (spec/10_state.md R18, spec/60_exceptions.md R120), tagged by what it is
(notes/assumptions/7.md); its number is `FaultInfo.code`. -/
inductive FaultInfo where
  /-- Nothing recorded: 0, the reset value. -/
  | none
  /-- The label identifier of an UnboundLabel. -/
  | label (l : Label)
  /-- The missing index of an OutOfRange. -/
  | index (i : Int)
  /-- The offending label value of a BadAddress. -/
  | value (v : Word)
  /-- The offending instruction word of a ConfigurationError. -/
  | word (w : Word)
  /-- The offending argument of a ConfigurationError. -/
  | argument (n : Int)
deriving DecidableEq, Repr

/-- The fault record `FAULT` (spec/10_state.md R18). -/
structure FaultRecord where
  /-- Which error. -/
  kind : FaultKind
  /-- The value of `pc` at the fault, or `PROG_LEN` for a fault of the load phase. -/
  index : Int
  /-- What was wrong. -/
  info : FaultInfo
deriving DecidableEq, Repr

/-- Data memory `MEM` (spec/10_state.md R15): (address, value) pairs of whole 16-bit cells, addresses
rising, no value 0; an unlisted address reads 0, its reset value (notes/assumptions/5.md). -/
abbrev Memory := List (Nat × Word)

/-- The symbol table `SYM` (spec/10_state.md R14): (identifier, value) pairs of the bound labels,
identifiers rising; an unlisted label is unbound (notes/assumptions/6.md). -/
abbrev SymTable := List (Nat × Word)

/-- The whole state of the engine (spec/10_state.md). -/
structure State where
  /-- `x[0]` to `x[7]`, the general registers (R10, R11). -/
  regs : Vector Word 8
  /-- `pc`, an index into PROG, an integer (R12). -/
  pc : Int
  /-- `FLAG`, the last result of a flag-writing instruction (R13). -/
  flag : Word
  /-- `SYM`, the symbol table (R14). -/
  sym : SymTable
  /-- `MEM`, the data memory (R15). -/
  mem : Memory
  /-- `PROG`, the program store, one word an index; `PROG_LEN` is its length (R16). -/
  prog : List Word
  /-- `RUN`, the run state (R17). -/
  run : RunState
  /-- `FAULT`, the fault record (R18). -/
  fault : FaultRecord
deriving DecidableEq, Repr

/-- The fault record after reset: kind none, index 0, info 0 (R18, R21). -/
def FaultRecord.clear : FaultRecord := ⟨.none, 0, .none⟩

/-- The machine right after reset for a given `FLAG_RESET`, which the spec leaves open (R21, R150). -/
def State.resetWith (flagReset : Word) : State where
  regs := Vector.replicate 8 0
  pc := 0
  flag := flagReset
  sym := []
  mem := []
  prog := []
  run := .loading
  fault := FaultRecord.clear

/-- The machine right after reset (R21), with the flag value the model names
(`Config.flagReset`, DESIGN CHOICE, notes/assumptions/1.md). -/
def State.reset : State := State.resetWith Config.flagReset

/-- Why `step` gives no next state. A fault of the engine (R120) is not one of these: it is a next state
with RUN = Faulted and the record written (R126); these say that no step exists from a state in which
the engine is not running (notes/assumptions/2.md). -/
inductive Fault where
  /-- Raised by `step` while RUN is Loading: the engine has not been started, and only the host moves
  (R125 precondition, R162). Safe: the engine executes nothing there. -/
  | notStarted
  /-- Raised by `step` while RUN is Halted: the run ended normally and no instruction executes after it
  (R115, R156). Safe. -/
  | halted
  /-- Raised by `step` while RUN is Faulted, with the record of the fault that ended the run: no
  recovery (R127, R156). Safe. -/
  | faulted (record : FaultRecord)
deriving DecidableEq, Repr

/-- Why `step` has no meaning for an instruction. Every instruction of the opcode table has one, so
nothing raises a refusal. -/
inductive Refusal where
  /-- Raised by an arm of `exec` whose instruction is not modelled yet: no arm is. Safe. -/
  | notModelled (mnemonic : String)
deriving DecidableEq, Repr

end Sys2Proof.Machine
end

