-- ==== Sys2Proof/Machine/Views.lean ====
section
/-! DEFINITION. The two views of a 16-bit pattern and the wrap into 16 bits (spec/00_scope.md R6), and the
numeric codes of the status fields (decision D12). -/

namespace Sys2Proof.Machine

/-- `u16(v)`, the unsigned view, 0 to 65535 (R6). -/
def u16 (v : Word) : Nat := v.toNat

/-- `s16(v)`, the signed view, -32768 to 32767 (R6). -/
def s16 (v : Word) : Int := if u16 v < 32768 then (u16 v : Int) else (u16 v : Int) - 65536

/-- `wrap16(n)`, the pattern whose unsigned view is `n mod 65536` (R6). -/
def wrap16 (n : Int) : Word := BitVec.ofNat 16 (n % 65536).toNat

/-- The 2-bit code of the run state (spec/10_state.md R17). -/
def RunState.code : RunState → Nat
  | .loading => 0
  | .running => 1
  | .halted => 2
  | .faulted => 3

/-- The code of a fault kind (spec/60_exceptions.md R120). -/
def FaultKind.code : FaultKind → Nat
  | .none => 0
  | .configurationError => 1
  | .unboundLabel => 2
  | .outOfRange => 3
  | .badAddress => 4

/-- `FAULT.info` as a number (spec/60_exceptions.md R120); words and label values are read as patterns
(DEDUCED from vector V-LS9, notes/assumptions/7.md). -/
def FaultInfo.code : FaultInfo → Int
  | .none => 0
  | .label l => (l.val : Int)
  | .index i => i
  | .value v => (u16 v : Int)
  | .word w => (u16 w : Int)
  | .argument n => n

end Sys2Proof.Machine
end

