-- ==== Sys2Proof/Machine/Ops.lean ====
section
/-! DEFINITION. The named operations over the state: sparse storage, the registers, the access primitives
of spec/20_memory.md R35 to R38, and fault entry (spec/60_exceptions.md R126). The engine has no return
from a fault (R127), so there is no operation beside it. -/

namespace Sys2Proof.Machine

/-- The value stored at key `a`, none if no entry has that key. -/
def Cells.lookup : List (Nat × Word) → Nat → Option Word
  | [], _ => none
  | (k, v) :: rest, a => if a = k then some v else Cells.lookup rest a

/-- The cells with value `v` at key `a`, every other key as before; keeps rising keys rising. -/
def Cells.insert : List (Nat × Word) → Nat → Word → List (Nat × Word)
  | [], a, v => [(a, v)]
  | (k, u) :: rest, a, v =>
    if a < k then (a, v) :: (k, u) :: rest
    else if a = k then (a, v) :: rest
    else (k, u) :: Cells.insert rest a v

/-- The cells without key `a`, every other key as before. -/
def Cells.erase (cells : List (Nat × Word)) (a : Nat) : List (Nat × Word) :=
  cells.filter (fun c => c.1 != a)

/-- The keys are strictly rising: the one order in which a set of cells is written down. -/
abbrev Cells.Rising (cells : List (Nat × Word)) : Prop := cells.Pairwise (fun c d => c.1 < d.1)

/-- The canonical form of MEM: addresses rising, inside the address space, no entry equal to what an
unlisted address reads as (R15). -/
abbrev Memory.wf (m : Memory) : Prop :=
  Cells.Rising m ∧ ∀ c ∈ m, c.1 < Config.memCells ∧ c.2 ≠ 0

/-- The canonical form of SYM: identifiers rising and inside the label space (R14). -/
abbrev SymTable.wf (t : SymTable) : Prop := Cells.Rising t ∧ ∀ c ∈ t, c.1 < Config.numLabels

/-- What the address reads as: the listed value, or 0, the reset value of every cell (R15, R35). -/
def Memory.read (m : Memory) (a : Nat) : Word := (Cells.lookup m a).getD 0

/-- The memory with value `v` at address `a`, in canonical form. -/
def Memory.write (m : Memory) (a : Nat) (v : Word) : Memory :=
  if v = 0 then Cells.erase m a else Cells.insert m a v

/-- `x[i]` (spec/10_state.md R10). -/
def readReg (s : State) (i : Reg) : Word := s.regs[i]

/-- `x[i] <- v` (R10): no register is hard-wired, so the write always takes place. -/
def writeReg (s : State) (i : Reg) (v : Word) : State := { s with regs := s.regs.set i v }

/-- `FLAG <- v` (R13). -/
def setFlag (s : State) (v : Word) : State := { s with flag := v }

/-- `pc <- t` (R12). -/
def setPc (s : State) (t : Int) : State := { s with pc := t }

/-- `pc <- i + 1`, the next index of every instruction but a taken branch and the halt (R12). -/
def advance (s : State) : State := setPc s (s.pc + 1)

/-- `RUN <- r` (R17). -/
def setRun (s : State) (r : RunState) : State := { s with run := r }

/-- `MemRead(addr, 16)` (R35); called with addresses below 65536 only. -/
def memRead (s : State) (addr : Nat) : Word := s.mem.read addr

/-- `MemWrite(addr, 16, v)` (R35); called with addresses below 65536 only. -/
def memWrite (s : State) (addr : Nat) (v : Word) : State := { s with mem := s.mem.write addr v }

/-- `EffAddr(v)`: the signed value if it is not negative; none where BadAddress is raised (R36, decision
D8). -/
def effAddr (v : Word) : Option Nat := if 0 ≤ s16 v then some (s16 v).toNat else none

/-- `SymResolve(l)`: the value bound to `l`; none where UnboundLabel is raised (R37). -/
def symResolve (s : State) (l : Label) : Option Word := Cells.lookup s.sym l.val

/-- The label is bound (R14). -/
def isBound (s : State) (l : Label) : Bool := (symResolve s l).isSome

/-- Binds the entry of label number `l` to `v`, bound before or not (R152: rebinding overwrites). -/
def symBind (s : State) (l : Nat) (v : Word) : State := { s with sym := Cells.insert s.sym l v }

/-- `SymWrite(l, v)`: overwrites the value of a bound entry; none where UnboundLabel is raised, with
nothing written (R37, decision D18). -/
def symWrite (s : State) (l : Label) (v : Word) : Option State :=
  if isBound s l then some (symBind s l.val v) else none

/-- `PROG_LEN` (R16). -/
def progLen (s : State) : Nat := s.prog.length

/-- `ProgFetch(i)`: the word at index `i`; none where OutOfRange is raised (R38). -/
def progFetch (s : State) (i : Int) : Option Word := if 0 ≤ i then s.prog[i.toNat]? else none

/-- Fault entry with a given index: the record is written, RUN becomes Faulted, nothing else changes
(spec/60_exceptions.md R126; R121 for the load phase). -/
def raiseAt (s : State) (kind : FaultKind) (index : Int) (info : FaultInfo) : State :=
  { s with run := .faulted, fault := ⟨kind, index, info⟩ }

/-- `raise K(info)` at a step: fault entry with `FAULT.index <- pc` (R126). -/
def raise (s : State) (kind : FaultKind) (info : FaultInfo) : State := raiseAt s kind s.pc info

/-- `halt`: RUN becomes Halted; `pc` and everything else stays (spec/43_trap.md R115, decision D19). -/
def halt (s : State) : State := setRun s .halted

/-- What every ADD, AND, NOT, LD and LDI does with its result: destination, flag, next index (R80, R105,
R106). -/
def writeResult (s : State) (dest : Reg) (r : Word) : State := advance (setFlag (writeReg s dest r) r)

/-- Goes on with the value of label `l`, or raises UnboundLabel (R125 item 3, R122). -/
def withLabel (s : State) (l : Label) (k : Word → Host.Outcome State Fault Refusal) :
    Host.Outcome State Fault Refusal :=
  match symResolve s l with
  | some a => k a
  | none => .next (raise s .unboundLabel (.label l))

/-- Goes on with the address in the label value `a`, or raises BadAddress (R125 item 4, R124). -/
def withAddress (s : State) (a : Word) (k : Nat → Host.Outcome State Fault Refusal) :
    Host.Outcome State Fault Refusal :=
  match effAddr a with
  | some addr => k addr
  | none => .next (raise s .badAddress (.value a))

/-- What an instruction value outside the legal variant does if it is ever executed: the configuration
error of the second line, never an effect (R64, R117, R121; DESIGN CHOICE, notes/assumptions/8.md). -/
def raiseIllFormed (s : State) (argument : Int) : Host.Outcome State Fault Refusal :=
  .next (raise s .configurationError (.argument argument))

/-- Why the engine takes no step in this state, none while it is Running (R125 precondition, R17, R156). -/
def whyStopped (s : State) : Option Fault :=
  match s.run with
  | .running => none
  | .loading => some .notStarted
  | .halted => some .halted
  | .faulted => some (.faulted s.fault)

end Sys2Proof.Machine
end

