-- ==== Sys2Proof/Machine/Operands.lean ====
section
/-! DEFINITION. The operand forms (spec/30_encoding.md R53, R54, spec/42_load_store.md R109): a register, an
immediate, a label used directly, a label used as an address. The label forms are `withLabel` and
`withAddress`, which raise the faults of R125 items 3 and 4. -/

namespace Sys2Proof.Machine

/-- A register source: its 16-bit pattern (R10, R11). -/
def regOperand (s : State) (r : Reg) : Word := readReg s r

/-- An immediate source as its 16-bit pattern, that is, sign-extended (R54, R84). -/
def immOperand (imm : Int) : Word := wrap16 imm

/-- Label-direct (LD, BR): goes on with the value of the label (R109). -/
def labelDirect (s : State) (l : Label) (k : Word → Host.Outcome State Fault Refusal) :
    Host.Outcome State Fault Refusal :=
  withLabel s l k

/-- Label-indirect (LDI, STI): goes on with the memory address in the label's value (R109, R36). -/
def labelIndirect (s : State) (l : Label) (k : Nat → Host.Outcome State Fault Refusal) :
    Host.Outcome State Fault Refusal :=
  withLabel s l (fun a => withAddress s a k)

end Sys2Proof.Machine
end

