-- ==== Sys2Proof/WellFormed.lean ====
section
/-! DEFINITION. Which instruction values are legal (spec/30_encoding.md R64). Register indices and label
identifiers are in range by their types; the immediate and the trap vector are checked here. -/

namespace Sys2Proof

/-- The immediate of ADD and AND is in -16 to 15 (R54, R64). -/
abbrev immLegal (imm : Int) : Prop := Config.immMin ≤ imm ∧ imm ≤ Config.immMax

/-- The trap vector is `HALT_VECTOR` (R64, R117). -/
abbrev vectorLegal (vector : Nat) : Prop := vector = Config.haltVector

/-- The instruction is a legal value of the variant (R64). -/
def Instr.wellFormed : Instr → Bool
  | .addImm _ _ imm => decide (immLegal imm)
  | .andImm _ _ imm => decide (immLegal imm)
  | .trap vector => decide (vectorLegal vector)
  | .addReg _ _ _ | .andReg _ _ _ | .notReg _ _ => true
  | .br _ | .brn _ | .brz _ | .brp _ | .brnz _ | .brzp _ | .brnp _ | .brnzp _ => true
  | .ld _ _ | .ldi _ _ | .st _ _ | .sti _ _ => true

/-- The argument that makes an instruction ill-formed (R121 "the offending word or argument"): its
immediate or its vector; 0 for the forms that have neither and so are always legal. -/
def Instr.offender : Instr → Int
  | .addImm _ _ imm => imm
  | .andImm _ _ imm => imm
  | .trap vector => vector
  | .addReg _ _ _ | .andReg _ _ _ | .notReg _ _ => 0
  | .br _ | .brn _ | .brz _ | .brp _ | .brnz _ | .brzp _ | .brnp _ | .brnzp _ => 0
  | .ld _ _ | .ldi _ _ | .st _ _ | .sti _ _ => 0

end Sys2Proof
end

