-- ==== Sys2Proof/Machine/Alu.lean ====
section
/-! DEFINITION. ADD, AND and NOT (spec/40_arith_logic.md). Each computes one 16-bit result from operands read
before the destination is written, and `writeResult` writes it (R80). -/

namespace Sys2Proof.Machine

/-- The sum of two patterns, wrapped to 16 bits (R81, R86). -/
def addWords (a b : Word) : Word := wrap16 (s16 a + s16 b)

/-- The bitwise AND of two patterns (R83). -/
def andWords (a b : Word) : Word := a &&& b

/-- The bitwise complement of a pattern (R85). -/
def notWord (a : Word) : Word := ~~~a

/-- ADD, register form (R81). -/
def execAddReg (dest src1 src2 : Reg) (s : State) : Host.Outcome State Fault Refusal :=
  .next (writeResult s dest (addWords (regOperand s src1) (regOperand s src2)))

/-- ADD, immediate form (R82). -/
def execAddImm (dest src1 : Reg) (imm : Int) (s : State) : Host.Outcome State Fault Refusal :=
  if immLegal imm then .next (writeResult s dest (wrap16 (s16 (regOperand s src1) + imm)))
  else raiseIllFormed s imm

/-- AND, register form (R83). -/
def execAndReg (dest src1 src2 : Reg) (s : State) : Host.Outcome State Fault Refusal :=
  .next (writeResult s dest (andWords (regOperand s src1) (regOperand s src2)))

/-- AND, immediate form (R84). -/
def execAndImm (dest src1 : Reg) (imm : Int) (s : State) : Host.Outcome State Fault Refusal :=
  if immLegal imm then .next (writeResult s dest (andWords (regOperand s src1) (immOperand imm)))
  else raiseIllFormed s imm

/-- NOT (R85). -/
def execNotReg (dest src : Reg) (s : State) : Host.Outcome State Fault Refusal :=
  .next (writeResult s dest (notWord (regOperand s src)))

end Sys2Proof.Machine
end

