-- ==== Sys2Proof/Machine/Flags.lean ====
section
/-! DEFINITION. The condition signals and the branch condition (spec/10_state.md R13, spec/41_branch.md R90,
spec/30_encoding.md R66). The flag is written by `writeResult` alone. -/

namespace Sys2Proof.Machine

/-- `N`: the flag is negative (R13). -/
def flagN (flag : Word) : Bool := decide (s16 flag < 0)

/-- `Z`: the flag is zero (R13). -/
def flagZ (flag : Word) : Bool := decide (s16 flag = 0)

/-- `P`: the flag is positive (R13). -/
def flagP (flag : Word) : Bool := decide (0 < s16 flag)

/-- `take(c, FLAG)`: the empty set means always, otherwise one of the named primitives holds (R90). -/
def take (c : Cond) (flag : Word) : Bool :=
  (!c.n && !c.z && !c.p) || (c.n && flagN flag) || (c.z && flagZ flag) || (c.p && flagP flag)

end Sys2Proof.Machine
end

