-- ==== Sys2Proof/Machine/Branch.lean ====
section
/-! DEFINITION. BR and its eight condition forms (spec/41_branch.md). -/

namespace Sys2Proof.Machine

/-- `Branch(condition, label)` (R91): the label is resolved first, taken or not (decision D16); a taken
branch loads the label's signed value into `pc` unchecked (decision D9). -/
def branch (c : Cond) (l : Label) (s : State) : Host.Outcome State Fault Refusal :=
  labelDirect s l (fun t => .next (if take c s.flag then setPc s (s16 t) else advance s))

/-- BR, the unconditional form: the empty condition set (R92). -/
def execBr (label : Label) (s : State) : Host.Outcome State Fault Refusal :=
  branch ⟨false, false, false⟩ label s

/-- BRn (R93). -/
def execBrn (label : Label) (s : State) : Host.Outcome State Fault Refusal :=
  branch ⟨true, false, false⟩ label s

/-- BRz (R94). -/
def execBrz (label : Label) (s : State) : Host.Outcome State Fault Refusal :=
  branch ⟨false, true, false⟩ label s

/-- BRp (R95). -/
def execBrp (label : Label) (s : State) : Host.Outcome State Fault Refusal :=
  branch ⟨false, false, true⟩ label s

/-- BRnz (R96). -/
def execBrnz (label : Label) (s : State) : Host.Outcome State Fault Refusal :=
  branch ⟨true, true, false⟩ label s

/-- BRzp (R97). -/
def execBrzp (label : Label) (s : State) : Host.Outcome State Fault Refusal :=
  branch ⟨false, true, true⟩ label s

/-- BRnp (R98). -/
def execBrnp (label : Label) (s : State) : Host.Outcome State Fault Refusal :=
  branch ⟨true, false, true⟩ label s

/-- BRnzp (R99). -/
def execBrnzp (label : Label) (s : State) : Host.Outcome State Fault Refusal :=
  branch ⟨true, true, true⟩ label s

end Sys2Proof.Machine
end

