-- ==== Sys2Proof/Machine/LoadStore.lean ====
section
/-! DEFINITION. LD, LDI, ST and STI (spec/42_load_store.md). LD and ST access the symbol table, not memory;
LDI and STI access memory once, at the address in the symbol table (R109). -/

namespace Sys2Proof.Machine

/-- LD: the label's value goes to the register and the flag (R105). -/
def execLd (dest : Reg) (label : Label) (s : State) : Host.Outcome State Fault Refusal :=
  labelDirect s label (fun v => .next (writeResult s dest v))

/-- LDI: the cell at the label's value goes to the register and the flag (R106). -/
def execLdi (dest : Reg) (label : Label) (s : State) : Host.Outcome State Fault Refusal :=
  labelIndirect s label (fun addr => .next (writeResult s dest (memRead s addr)))

/-- ST: the register overwrites the value of a bound label; the flag stays (R107). -/
def execSt (src : Reg) (label : Label) (s : State) : Host.Outcome State Fault Refusal :=
  match symWrite s label (regOperand s src) with
  | some t => .next (advance t)
  | none => .next (raise s .unboundLabel (.label label))

/-- STI: the register is written to the cell at the label's value; the flag stays (R108). -/
def execSti (src : Reg) (label : Label) (s : State) : Host.Outcome State Fault Refusal :=
  labelIndirect s label (fun addr => .next (advance (memWrite s addr (regOperand s src))))

end Sys2Proof.Machine
end

