-- ==== Sys2Proof/Machine/Trap.lean ====
section
/-! DEFINITION. TRAP x25, the halt (spec/43_trap.md). It is not an exception: it is the normal end of a run. -/

namespace Sys2Proof.Machine

/-- TRAP with the halt vector ends the run; `pc` stays, nothing else changes (R115). Another vector is no
instruction of the engine, never a halt and never a no-operation (R117). -/
def execTrap (vector : Nat) (s : State) : Host.Outcome State Fault Refusal :=
  if vectorLegal vector then .next (halt s) else raiseIllFormed s vector

end Sys2Proof.Machine
end

