-- ==== Sys2Proof/Machine/Dispatch.lean ====
section
/-! DEFINITION. One arm per instruction: what `exec` does with each. -/

namespace Sys2Proof.Machine

def exec (i : Instr) (s : State) : Host.Outcome State Fault Refusal :=
  match i with
  | .addReg dest src1 src2 => Sys2Proof.Machine.execAddReg dest src1 src2 s
  | .addImm dest src1 imm => Sys2Proof.Machine.execAddImm dest src1 imm s
  | .andReg dest src1 src2 => Sys2Proof.Machine.execAndReg dest src1 src2 s
  | .andImm dest src1 imm => Sys2Proof.Machine.execAndImm dest src1 imm s
  | .notReg dest src => Sys2Proof.Machine.execNotReg dest src s
  | .br label => Sys2Proof.Machine.execBr label s
  | .brn label => Sys2Proof.Machine.execBrn label s
  | .brz label => Sys2Proof.Machine.execBrz label s
  | .brp label => Sys2Proof.Machine.execBrp label s
  | .brnz label => Sys2Proof.Machine.execBrnz label s
  | .brzp label => Sys2Proof.Machine.execBrzp label s
  | .brnp label => Sys2Proof.Machine.execBrnp label s
  | .brnzp label => Sys2Proof.Machine.execBrnzp label s
  | .ld dest label => Sys2Proof.Machine.execLd dest label s
  | .ldi dest label => Sys2Proof.Machine.execLdi dest label s
  | .st src label => Sys2Proof.Machine.execSt src label s
  | .sti src label => Sys2Proof.Machine.execSti src label s
  | .trap vector => Sys2Proof.Machine.execTrap vector s

end Sys2Proof.Machine
end

