-- ==== Sys2Proof/Decode.lean ====
section
/-! DEFINITION. The decoder and the encoder of the 16-bit instruction word (spec/30_encoding.md R51 to R59,
R65). The word layout is the spec's decision D2; a word has no byte order (spec/20_memory.md R32). -/

namespace Sys2Proof

/-- Why a word is illegal (R59): the decoder rejects by one of these names. -/
inductive DecodeReject where
  /-- One of the seven opcodes the engine does not have: 0100, 0110, 0111, 1000, 1100, 1101, 1110. -/
  | unusedOpcode
  /-- Register form of ADD or AND with `w[4:3]` not 00. -/
  | registerFormBits
  /-- NOT with `w[5:0]` not all ones. -/
  | notBits
  /-- TRAP with `w[11:8]` not 0000. -/
  | trapHighBits
  /-- TRAP with a vector other than `HALT_VECTOR`. -/
  | trapVector
deriving DecidableEq, Repr

/-- `w[15:12]`, the opcode in every format (R51). -/
def opcodeField (w : Word) : Nat := (w.extractLsb' 12 4).toNat

/-- The 3-bit register field whose lowest bit is `lo`: 9 for DR and for SR of format RL, 6 for SR1 and
for SR of NOT, 0 for SR2 (R53). -/
def regField (w : Word) (lo : Nat) : Reg := (w.extractLsb' lo 3).toFin

/-- `LABEL9`, `w[8:0]`, zero-extended: a label identifier (R55). -/
def labelField (w : Word) : Label := (w.extractLsb' 0 9).toFin

/-- `imm5`, `w[4:0]`, a 5-bit two's-complement number (R54). -/
def immField (w : Word) : Int := (w.extractLsb' 0 5).toInt

/-- `trapvect8`, `w[7:0]`, zero-extended (R56). -/
def vectorField (w : Word) : Nat := (w.extractLsb' 0 8).toNat

/-- Format BL: the condition form is `n z p` in bits 11, 10, 9 (R57, R66); all words are legal. -/
def decodeBranch (w : Word) : Instr :=
  match (w.extractLsb' 9 3).toNat with
  | 0 => .br (labelField w)
  | 1 => .brp (labelField w)
  | 2 => .brz (labelField w)
  | 3 => .brzp (labelField w)
  | 4 => .brn (labelField w)
  | 5 => .brnp (labelField w)
  | 6 => .brnz (labelField w)
  | _ => .brnzp (labelField w)

/-- The decoder: a total function from a word to an instruction or a named rejection (R57). -/
def decode (w : Word) : Except DecodeReject Instr :=
  match opcodeField w with
  | 0 => .ok (decodeBranch w)
  | 1 =>
    if w.getLsbD 5 then .ok (.addImm (regField w 9) (regField w 6) (immField w))
    else if w.extractLsb' 3 2 = 0 then .ok (.addReg (regField w 9) (regField w 6) (regField w 0))
    else .error .registerFormBits
  | 2 => .ok (.ld (regField w 9) (labelField w))
  | 3 => .ok (.st (regField w 9) (labelField w))
  | 5 =>
    if w.getLsbD 5 then .ok (.andImm (regField w 9) (regField w 6) (immField w))
    else if w.extractLsb' 3 2 = 0 then .ok (.andReg (regField w 9) (regField w 6) (regField w 0))
    else .error .registerFormBits
  | 9 =>
    if w.extractLsb' 0 6 = 0b111111 then .ok (.notReg (regField w 9) (regField w 6))
    else .error .notBits
  | 10 => .ok (.ldi (regField w 9) (labelField w))
  | 11 => .ok (.sti (regField w 9) (labelField w))
  | 15 =>
    if w.extractLsb' 8 4 = 0 then
      if vectorField w = Config.haltVector then .ok (.trap (vectorField w)) else .error .trapVector
    else .error .trapHighBits
  | _ => .error .unusedOpcode

/-- A word is legal when it decodes to an instruction (R57, R59). -/
def wordLegal (w : Word) : Bool :=
  match decode w with
  | .ok _ => true
  | .error _ => false

/-- The number behind the word of an instruction (R65, one formula per variant). -/
def encodeNat : Instr → Nat
  | .addReg d a b => 0x1000 + 512 * d.val + 64 * a.val + b.val
  | .addImm d a imm => 0x1020 + 512 * d.val + 64 * a.val + (imm % 32).toNat
  | .andReg d a b => 0x5000 + 512 * d.val + 64 * a.val + b.val
  | .andImm d a imm => 0x5020 + 512 * d.val + 64 * a.val + (imm % 32).toNat
  | .notReg d a => 0x903F + 512 * d.val + 64 * a.val
  | .br l => l.val
  | .brn l => 2048 + l.val
  | .brz l => 1024 + l.val
  | .brp l => 512 + l.val
  | .brnz l => 2048 + 1024 + l.val
  | .brzp l => 1024 + 512 + l.val
  | .brnp l => 2048 + 512 + l.val
  | .brnzp l => 2048 + 1024 + 512 + l.val
  | .ld d l => 0x2000 + 512 * d.val + l.val
  | .st s l => 0x3000 + 512 * s.val + l.val
  | .ldi d l => 0xA000 + 512 * d.val + l.val
  | .sti s l => 0xB000 + 512 * s.val + l.val
  | .trap vector => 0xF000 + vector

/-- The word of an instruction (R65). -/
def encode (i : Instr) : Word := BitVec.ofNat 16 (encodeNat i)

/-- A row of the opcode table (R58): a word is this instruction when `w AND mask` is `bits`. -/
structure OpcodeRow where
  /-- The bits the row fixes. -/
  mask : Word
  /-- Their values (the table's "match"). -/
  bits : Word
deriving DecidableEq, Repr

/-- The word matches the row (R58). -/
def OpcodeRow.accepts (r : OpcodeRow) (w : Word) : Bool := w &&& r.mask == r.bits

/-- The row of each instruction (R58, spec/opcode_table.json). -/
def Instr.row : Instr → OpcodeRow
  | .addReg _ _ _ => ⟨0xF038, 0x1000⟩
  | .addImm _ _ _ => ⟨0xF020, 0x1020⟩
  | .andReg _ _ _ => ⟨0xF038, 0x5000⟩
  | .andImm _ _ _ => ⟨0xF020, 0x5020⟩
  | .notReg _ _ => ⟨0xF03F, 0x903F⟩
  | .br _ => ⟨0xFE00, 0x0000⟩
  | .brn _ => ⟨0xFE00, 0x0800⟩
  | .brz _ => ⟨0xFE00, 0x0400⟩
  | .brp _ => ⟨0xFE00, 0x0200⟩
  | .brnz _ => ⟨0xFE00, 0x0C00⟩
  | .brzp _ => ⟨0xFE00, 0x0600⟩
  | .brnp _ => ⟨0xFE00, 0x0A00⟩
  | .brnzp _ => ⟨0xFE00, 0x0E00⟩
  | .ld _ _ => ⟨0xF000, 0x2000⟩
  | .ldi _ _ => ⟨0xF000, 0xA000⟩
  | .st _ _ => ⟨0xF000, 0x3000⟩
  | .sti _ _ => ⟨0xF000, 0xB000⟩
  | .trap _ => ⟨0xFFFF, 0xF025⟩

/-- The opcode table, in the order of R58. -/
def opcodeRows : List OpcodeRow :=
  [⟨0xF038, 0x1000⟩, ⟨0xF020, 0x1020⟩, ⟨0xF038, 0x5000⟩, ⟨0xF020, 0x5020⟩, ⟨0xF03F, 0x903F⟩,
   ⟨0xFE00, 0x0000⟩, ⟨0xFE00, 0x0800⟩, ⟨0xFE00, 0x0400⟩, ⟨0xFE00, 0x0200⟩, ⟨0xFE00, 0x0C00⟩,
   ⟨0xFE00, 0x0600⟩, ⟨0xFE00, 0x0A00⟩, ⟨0xFE00, 0x0E00⟩] ++
  [⟨0xF000, 0x2000⟩, ⟨0xF000, 0xA000⟩, ⟨0xF000, 0x3000⟩, ⟨0xF000, 0xB000⟩, ⟨0xFFFF, 0xF025⟩]

/-- The instruction word of an instruction whose table bits are `w`, `nbits` of them: bit 0 is the least
significant bit of the word, and every bit above `nbits` is 0. -/
def tableWord (nbits w : Nat) : Word := BitVec.ofNat 16 (w % 2 ^ nbits)

/-- What the decoder reads from an instruction whose bits are `w`, numbered as spec/opcode_table.json
numbers them; none where it refuses. Instructions are one word (R51, R61), so more than 16 bits are no
instruction. -/
def decodeTableWord (nbits w : Nat) : Option Instr :=
  if nbits ≤ 16 then
    match decode (tableWord nbits w) with
    | .ok i => some i
    | .error _ => none
  else none

end Sys2Proof
end

