-- ==== Sys2Proof/Machine/Fetch.lean ====
section
/-! DEFINITION. Fetching and decoding the next instruction (spec/60_exceptions.md R125 items 1 and 2), and
placing an instruction where the next fetch finds it. -/

namespace Sys2Proof.Machine

/-- The instruction at `pc`, or the state in which the fetch fault (OutOfRange, R123) or the decode fault
(ConfigurationError, R121 second line) leaves the machine. -/
def fetchInstr (s : State) : Except State Instr :=
  match progFetch s s.pc with
  | none => .error (raise s .outOfRange (.index s.pc))
  | some w =>
    match decode w with
    | .ok i => .ok i
    | .error _ => .error (raise s .configurationError (.word w))

/-- The state with the word `w` at index `pc` of the program store and the engine running: what loading
that word and `beginExecution` amount to for the next step. A `pc` that names neither a stored
instruction nor the end of the store cannot fetch, so it is set to 0 (notes/assumptions/4.md). -/
def placeWord (s : State) (w : Word) : State :=
  let at_ : Nat := if 0 ≤ s.pc ∧ s.pc ≤ s.prog.length then s.pc.toNat else 0
  { s with pc := at_, prog := s.prog.take at_ ++ w :: s.prog.drop (at_ + 1), run := .running }

end Sys2Proof.Machine
end

