-- ==== Sys2Proof/Machine/Step.lean ====
section
/-! DEFINITION. One step of the engine (spec/60_exceptions.md R125), and the state in which a given word is
the next instruction. -/

namespace Sys2Proof.Machine

/-- One step: fetch, decode, execute. It exists while RUN is Running (R125); outside it the named fault
says why there is none. A fault of fetch or decode is a next state, as every fault is (R126). -/
def step (s : State) : Host.Outcome State Fault Refusal :=
  match whyStopped s with
  | some f => .fault f
  | none =>
    match fetchInstr s with
    | .ok i => exec i s
    | .error t => .next t

/-- The state in which `step` fetches the word with table bits `w` next (notes/assumptions/4.md). -/
def State.withFetchWord (s : State) (nbits w : Nat) : State := placeWord s (tableWord nbits w)

end Sys2Proof.Machine
end

