-- ==== Sys2Proof/Machine/Boundary.lean ====
section
/-! DEFINITION. The boundary operations through which the host loads, starts and inspects the machine
(spec/70_reset_and_hazards.md R150 to R156, R162; spec/20_memory.md R47, R48; spec/60_exceptions.md R121). -/

namespace Sys2Proof.Machine

/-- An operation of the host. Addresses and label identifiers are integers, since the host may offer one
that is out of range (R121, decision D21). -/
inductive HostOp where
  /-- A fresh machine for one run, with the open `FLAG_RESET` (R150). -/
  | reset (flagReset : Word)
  /-- `appendInstruction` with an instruction word, the binary level (R151). -/
  | appendWord (w : Word)
  /-- `appendInstruction` with a value of the variant, the abstract level (R151, R64). -/
  | appendInstr (i : Instr)
  /-- `bindPositionLabel` (R152). -/
  | bindPositionLabel (l : Int)
  /-- `bindConstantLabel` (R152). -/
  | bindConstantLabel (l : Int) (v : Word)
  /-- `setMemory` (R153, R47). -/
  | setMemory (address : Int) (v : Word)
  /-- `getMemory` (R47, R156). -/
  | getMemory (address : Int)
  /-- `beginExecution` (R153). -/
  | beginExecution
  /-- Inspection of a register (R156). -/
  | readRegister (r : Reg)
  /-- Inspection of RUN (R156). -/
  | readRun
  /-- Inspection of `pc` (R156). -/
  | readPc
  /-- Inspection of the fault record (R156). -/
  | readFault
deriving DecidableEq, Repr

/-- What the host is told. -/
inductive HostReply where
  /-- The operation took place. -/
  | done
  /-- The index given to an appended instruction. -/
  | index (n : Nat)
  /-- The value of a cell or register. -/
  | value (v : Word)
  /-- The run state. -/
  | runState (r : RunState)
  /-- The program counter. -/
  | pc (i : Int)
  /-- The fault record. -/
  | record (f : FaultRecord)
  /-- The operation was refused. -/
  | refused
deriving DecidableEq, Repr

/-- A refused operation: in Loading it is the ConfigurationError fault with index `PROG_LEN`; in every
other state it changes nothing, so the outcome of a run is never overwritten (R121, C14). -/
def hostRefuse (s : State) (info : FaultInfo) : HostReply × State :=
  (.refused,
    if s.run = .loading then raiseAt s .configurationError (progLen s) info else s)

/-- The address is one of the 65536 cells (R47). -/
abbrev addressLegal (address : Int) : Prop := 0 ≤ address ∧ address < Config.memCells

/-- The identifier is one of the 512 labels (R121, decision D3). -/
abbrev labelLegal (l : Int) : Prop := 0 ≤ l ∧ l < Config.numLabels

/-- The run has ended and the machine may be inspected (R156, R162). -/
abbrev runEnded (s : State) : Prop := s.run = .halted ∨ s.run = .faulted

/-- `appendInstruction` of a word: appends a legal word at index `PROG_LEN` while there is room, labels
unchecked (R151, R59). -/
def hostAppendWord (s : State) (w : Word) : HostReply × State :=
  if s.run = .loading ∧ wordLegal w ∧ progLen s < Config.progMax then
    (.index (progLen s), { s with prog := s.prog ++ [w] })
  else hostRefuse s (.word w)

/-- `appendInstruction` of an instruction value: an ill-formed one is refused (R64), a well-formed one is
appended as its word (R65). -/
def hostAppendInstr (s : State) (i : Instr) : HostReply × State :=
  if i.wellFormed then hostAppendWord s (encode i) else hostRefuse s (.argument i.offender)

/-- Either binding operation: the entry becomes bound to `v`, rebinding overwrites (R152). -/
def hostBind (s : State) (l : Int) (v : Word) : HostReply × State :=
  if s.run = .loading ∧ labelLegal l then (.done, symBind s l.toNat v)
  else hostRefuse s (.argument l)

/-- `setMemory`: seeds a cell, in Loading only (R153, R47, decision D27). -/
def hostSetMemory (s : State) (address : Int) (v : Word) : HostReply × State :=
  if s.run = .loading ∧ addressLegal address then (.done, memWrite s address.toNat v)
  else hostRefuse s (.argument address)

/-- `getMemory`: reads a cell, in every state but Running (R47, R156, R162). -/
def hostGetMemory (s : State) (address : Int) : HostReply × State :=
  if s.run ≠ .running ∧ addressLegal address then (.value (memRead s address.toNat), s)
  else hostRefuse s (.argument address)

/-- `beginExecution`: starts the engine at index 0, in Loading only, without any check of the program
(R153). -/
def hostBegin (s : State) : HostReply × State :=
  if s.run = .loading then (.done, setRun (setPc s 0) .running) else (.refused, s)

/-- Inspection after the run (R156); at any other time refused, with no change of state
(DESIGN CHOICE in Loading, notes/assumptions/9.md). -/
def hostInspect (s : State) (reply : HostReply) : HostReply × State :=
  (if runEnded s then reply else .refused, s)

/-- Reset: a fresh machine; refused while the engine runs (R162; DESIGN CHOICE,
notes/assumptions/10.md). -/
def hostReset (s : State) (flagReset : Word) : HostReply × State :=
  if s.run = .running then (.refused, s) else (.done, State.resetWith flagReset)

/-- One operation of the host: its reply and the state after it (R162). -/
def hostStep (op : HostOp) (s : State) : HostReply × State :=
  match op with
  | .reset flagReset => hostReset s flagReset
  | .appendWord w => hostAppendWord s w
  | .appendInstr i => hostAppendInstr s i
  | .bindPositionLabel l => hostBind s l (wrap16 (progLen s))
  | .bindConstantLabel l v => hostBind s l v
  | .setMemory address v => hostSetMemory s address v
  | .getMemory address => hostGetMemory s address
  | .beginExecution => hostBegin s
  | .readRegister r => hostInspect s (.value (readReg s r))
  | .readRun => hostInspect s (.runState s.run)
  | .readPc => hostInspect s (.pc s.pc)
  | .readFault => hostInspect s (.record s.fault)

/-- The state after a sequence of host operations. -/
def hostRun : List HostOp → State → State
  | [], s => s
  | op :: ops, s => hostRun ops (hostStep op s).2

end Sys2Proof.Machine
end

