-- ==== Sys2Proof/Safety.lean ====
section
/-! DEFINITION. What counts as a sound state and a safe run, in the terms the statements use. -/

namespace Sys2Proof

/-- The destination register, for the instructions that write one; these are also the ones that write the
flag (spec/10_state.md R13). -/
def Instr.dest : Instr → Option Reg
  | .addReg d _ _ | .addImm d _ _ | .andReg d _ _ | .andImm d _ _ | .notReg d _ => some d
  | .ld d _ | .ldi d _ => some d
  | .br _ | .brn _ | .brz _ | .brp _ | .brnz _ | .brzp _ | .brnp _ | .brnzp _ => none
  | .st _ _ | .sti _ _ | .trap _ => none

/-- The label operand, for the instructions that name one (spec/60_exceptions.md R125 item 3). -/
def Instr.labelOperand : Instr → Option Label
  | .addReg _ _ _ | .addImm _ _ _ | .andReg _ _ _ | .andImm _ _ _ | .notReg _ _ | .trap _ => none
  | .br l | .brn l | .brz l | .brp l | .brnz l | .brzp l | .brnp l | .brnzp l => some l
  | .ld _ l | .ldi _ l | .st _ l | .sti _ l => some l

/-- The instructions that use the label's value as a memory address: LDI and STI (R125 item 4). -/
def Instr.usesAddress : Instr → Bool
  | .ldi _ _ | .sti _ _ => true
  | .addReg _ _ _ | .addImm _ _ _ | .andReg _ _ _ | .andImm _ _ _ | .notReg _ _ | .trap _ => false
  | .br _ | .brn _ | .brz _ | .brp _ | .brnz _ | .brzp _ | .brnp _ | .brnzp _ => false
  | .ld _ _ | .st _ _ => false

/-- The eight condition forms of BR on one label (spec/30_encoding.md R66). -/
def branchesOn (l : Label) : List Instr :=
  [.br l, .brn l, .brz l, .brp l, .brnz l, .brzp l, .brnp l, .brnzp l]

end Sys2Proof

namespace Sys2Proof.Machine

/-- The instruction the engine would execute next: fetched at `pc` and decoded to `i`. -/
def Fetches (s : State) (i : Instr) : Prop :=
  ∃ w, progFetch s s.pc = some w ∧ decode w = .ok i

/-- Fault entry written out (spec/60_exceptions.md R126): the record with `FAULT.index = pc`, RUN Faulted,
every other field as it was. -/
def faultedState (s : State) (kind : FaultKind) (info : FaultInfo) : State :=
  { s with run := .faulted, fault := ⟨kind, s.pc, info⟩ }

/-- The refusal of a host operation in Loading, written out (R121): the record with
`FAULT.index = PROG_LEN`, RUN Faulted, every other field as it was. -/
def refusedLoad (s : State) (info : FaultInfo) : State :=
  { s with run := .faulted, fault := ⟨.configurationError, s.prog.length, info⟩ }

/-- The effect of a flag-writing instruction written out (R80, R105, R106): result to the destination and
the flag, next index, every other field as it was. -/
def resultState (s : State) (d : Reg) (r : Word) : State :=
  { s with regs := s.regs.set d r, flag := r, pc := s.pc + 1 }

/-- What the rules R91 to R99 say of one condition form: its words, that it is the only meaning of them,
where it goes if it jumps, if it does not, and if its label is unbound. -/
def BranchForm (form : Label → Instr) (bits : Nat) (jumps : Int → Prop) : Prop :=
  (∀ l : Label, decode (BitVec.ofNat 16 (bits + l.val)) = .ok (form l)) ∧
  (∀ w : Word, (∃ l, decode w = .ok (form l)) ↔ w &&& 0xFE00 = BitVec.ofNat 16 bits) ∧
  ∀ (l : Label) (s : State),
    (∀ t, symResolve s l = some t → jumps (s16 s.flag) →
      exec (form l) s = .next { s with pc := s16 t }) ∧
    (∀ t, symResolve s l = some t → ¬ jumps (s16 s.flag) →
      exec (form l) s = .next { s with pc := s.pc + 1 }) ∧
    (symResolve s l = none → exec (form l) s = .next (faultedState s .unboundLabel (.label l)))

/-- Two states that differ at most in the memory cells 32768 and above (spec/20_memory.md R36). -/
structure AgreeBelow (s t : State) : Prop where
  /-- The registers are equal. -/
  regs : t.regs = s.regs
  /-- The program counters are equal. -/
  pc : t.pc = s.pc
  /-- The flags are equal. -/
  flag : t.flag = s.flag
  /-- The symbol tables are equal. -/
  sym : t.sym = s.sym
  /-- The program stores are equal. -/
  prog : t.prog = s.prog
  /-- The run states are equal. -/
  run : t.run = s.run
  /-- The fault records are equal. -/
  fault : t.fault = s.fault
  /-- The cells a program can reach read the same. -/
  low : ∀ a, a < 32768 → memRead t a = memRead s a

/-- The invariant of the machine: what holds of every state the host and the engine can bring about. -/
structure State.Inv (s : State) : Prop where
  /-- MEM is in canonical form, inside its 65536 cells (spec/10_state.md R15). -/
  memWf : Memory.wf s.mem
  /-- SYM is in canonical form, inside its 512 entries (R14). -/
  symWf : SymTable.wf s.sym
  /-- The program fits the store (R16, decision D5). -/
  progFits : s.prog.length ≤ Config.progMax
  /-- Every stored word was checked when it was loaded (spec/30_encoding.md R59). -/
  progLegal : ∀ w ∈ s.prog, wordLegal w = true
  /-- `pc` is in its range (R12, decision D4). -/
  pcRange : Config.pcMin ≤ s.pc ∧ s.pc ≤ Config.pcMax
  /-- The fault record is set exactly in the state Faulted (R18). -/
  faultedIffRecorded : s.run = .faulted ↔ s.fault.kind ≠ .none
  /-- A record that names no fault is the reset record (R18, R21). -/
  unrecordedIsClear : s.fault.kind = .none → s.fault = FaultRecord.clear
  /-- In Loading no instruction has run: registers and `pc` are as reset left them (R155). -/
  loadingIsFresh : s.run = .loading → s.regs = Vector.replicate 8 0 ∧ s.pc = 0
  /-- In Halted, `pc` is the index of the TRAP x25 that ended the run (R115, decision D19). -/
  haltedAtTrap : s.run = .halted → progFetch s s.pc = some 0xF025

/-- The launch state of a run, FLAG and the host's loads apart (spec/70_reset_and_hazards.md R155). -/
structure State.Launch (s : State) : Prop where
  /-- All registers are 0. -/
  regsZero : ∀ r, readReg s r = 0
  /-- Execution starts at index 0. -/
  pcZero : s.pc = 0
  /-- The engine is running. -/
  isRunning : s.run = .running
  /-- No fault is recorded. -/
  faultClear : s.fault = FaultRecord.clear

/-- The states that host operations and steps of the engine reach from a reset (R150, R162). -/
inductive Reachable : State → Prop where
  /-- The state after reset, for every `FLAG_RESET`. -/
  | reset (flagReset : Word) : Reachable (State.resetWith flagReset)
  /-- The state after an operation of the host. -/
  | host (s : State) (op : HostOp) : Reachable s → Reachable (hostStep op s).2
  /-- The state after a step of the engine. -/
  | engine (s t : State) : Reachable s → step s = .next t → Reachable t

/-- A safe end of a run is a halt: the run did not end in a fault (spec/60_exceptions.md R128). -/
abbrev State.EndedNormally (s : State) : Prop := s.run = .halted

end Sys2Proof.Machine
end

