-- ==== Sys2Proof/Certificates/Slice0/Obligations.lean ====
section
/-! DEFINITION. The statements for the provers, from the numbered rules of spec/. -/

open Sys2Proof Sys2Proof.Machine

/-- R21: every field after reset, for every value of the open parameter `FLAG_RESET`, and that execution
starts at index 0 of the program store. -/
def Obligations.ResetLeavesTheTableOfR21 : Prop :=
  ∀ f : Word,
    (∀ r, readReg (State.resetWith f) r = 0) ∧
    (∀ a, a < 65536 → memRead (State.resetWith f) a = 0) ∧
    (State.resetWith f).flag = f ∧
    (∀ l, symResolve (State.resetWith f) l = none) ∧
    (State.resetWith f).prog = [] ∧ progLen (State.resetWith f) = 0 ∧
    (State.resetWith f).pc = 0 ∧
    (State.resetWith f).run = .loading ∧
    (State.resetWith f).fault.kind.code = 0 ∧ (State.resetWith f).fault.index = 0 ∧
    (State.resetWith f).fault.info.code = 0 ∧
    (hostStep .beginExecution (State.resetWith f)).2.pc = 0

/-- The invariant holds at reset, whatever `FLAG_RESET` is, and so at the host's reset state, whose flag is
the model's choice 0 (notes/assumptions/1.md). -/
def Obligations.InvariantHoldsAtReset : Prop :=
  (∀ f : Word, (State.resetWith f).Inv) ∧
    Sys2Proof.core.reset = State.resetWith 0 ∧ State.reset.Inv

/-- 10_state.md section 1 (R10): the eight registers are independent, none is hard-wired, and a register
write changes nothing else. -/
def Obligations.RegistersAreIndependent : Prop :=
  ∀ (s : State) (i j : Reg) (v : Word),
    readReg (writeReg s i v) j = (if j = i then v else readReg s j) ∧
    ∃ regs, writeReg s i v = { s with regs := regs }

/-- R35: a cell holds what was written to it last, by `MemWrite` or by the host's `setMemory`, or 0 since
reset; a write changes no other cell and nothing else. -/
def Obligations.MemoryHoldsTheLastWrite : Prop :=
  ∀ (s : State) (a b : Nat) (v : Word), a < 65536 → b < 65536 →
    memRead (memWrite s a v) b = (if b = a then v else memRead s b) ∧
    (∃ m, memWrite s a v = { s with mem := m }) ∧
    (s.run = .loading →
      memRead (hostStep (.setMemory a v) s).2 b = (if b = a then v else memRead s b)) ∧
    ∀ f, memRead (State.resetWith f) b = 0

/-- 20_memory.md section 3 (R36, decision D8 of the spec): the effective address is the signed value if it is
not negative, then at most 32767; otherwise there is none. -/
def Obligations.EffectiveAddressIsTheSignedValue : Prop :=
  ∀ v : Word,
    (0 ≤ s16 v → ∃ n, effAddr v = some n ∧ (n : Int) = s16 v ∧ n ≤ 32767) ∧
    (s16 v < 0 → effAddr v = none)

/-- R37: resolving and writing a bound label, and the UnboundLabel of every label instruction on an unbound
one; neither touches memory. -/
def Obligations.SymbolTableResolvesAndWrites : Prop :=
  ∀ (s : State) (l : Label) (v : Word),
    (∀ a, symResolve s l = some a →
      ∃ t, symWrite s l v = some t ∧ symResolve t l = some v ∧
        (∀ k, k ≠ l → symResolve t k = symResolve s k) ∧ ∃ y, t = { s with sym := y }) ∧
    (symResolve s l = none → symWrite s l v = none ∧
      ∀ i : Instr, i.labelOperand = some l →
        exec i s = .next (faultedState s .unboundLabel (.label l)))

/-- R38, R123: inside the store the fetch gives the stored word; outside it a step of the running engine
raises OutOfRange with index and info `pc`, and does not halt. -/
def Obligations.FetchOutsideTheStoreFaults : Prop :=
  ∀ s : State,
    (∀ n : Nat, n < progLen s → progFetch s n = s.prog[n]?) ∧
    (∀ i : Int, i < 0 ∨ (progLen s : Int) ≤ i → progFetch s i = none) ∧
    (s.run = .running → s.pc < 0 ∨ (progLen s : Int) ≤ s.pc →
      step s = .next (faultedState s .outOfRange (.index s.pc)))

/-- 30_encoding.md section 4 (R57, R58): a word decodes to an instruction exactly when it matches one and
only one row of the opcode table, and the row is that instruction's. -/
def Obligations.DecoderAcceptsTheTableRows : Prop :=
  (∀ w : Word, (∃ i, decode w = .ok i) ↔ ∃! r, r ∈ opcodeRows ∧ r.accepts w = true) ∧
  ∀ (w : Word) (i : Instr), decode w = .ok i →
    i.row ∈ opcodeRows ∧ i.row.accepts w = true ∧ i.wellFormed = true

/-- 30_encoding.md section 5 (R59): the illegal classes, each under its own name. -/
def Obligations.DecoderRejectsTheIllegalClasses : Prop :=
  ∀ w : Word,
    (decode w = .error .unusedOpcode ↔ w.toNat / 4096 ∈ [4, 6, 7, 8, 12, 13, 14]) ∧
    (decode w = .error .registerFormBits ↔
      w.toNat / 4096 ∈ [1, 5] ∧ w.toNat / 32 % 2 = 0 ∧ w.toNat / 8 % 4 ≠ 0) ∧
    (decode w = .error .notBits ↔ w.toNat / 4096 = 9 ∧ w.toNat % 64 ≠ 63) ∧
    (decode w = .error .trapHighBits ↔ w.toNat / 4096 = 15 ∧ w.toNat / 256 % 16 ≠ 0) ∧
    (decode w = .error .trapVector ↔
      w.toNat / 4096 = 15 ∧ w.toNat / 256 % 16 = 0 ∧ w.toNat % 256 ≠ 0x25)

/-- 30_encoding.md section 6 (R65): decoding inverts encoding on every well-formed instruction, with every
operand at every value, and encoding inverts decoding on every legal word. -/
def Obligations.DecodeAndEncodeAreInverse : Prop :=
  (∀ i : Instr, i.wellFormed = true → decode (encode i) = .ok i) ∧
  (∀ (w : Word) (i : Instr), decode w = .ok i → encode i = w)

/-- The example words of 40_arith_logic.md (R81 to R85), 41_branch.md (R92 to R99), 42_load_store.md (R105 to
R108) and 43_trap.md (R115), eighteen of them, and the word that R116 says is not the halt. -/
def Obligations.ExampleWordsDecode : Prop :=
  decode 0x1042 = .ok (.addReg 0 1 2) ∧ decode 0x16FF = .ok (.addImm 3 3 (-1)) ∧
  decode 0x5042 = .ok (.andReg 0 1 2) ∧ decode 0x54A0 = .ok (.andImm 2 2 0) ∧
  decode 0x987F = .ok (.notReg 4 1) ∧ decode 0x0004 = .ok (.br 4) ∧
  decode 0x0803 = .ok (.brn 3) ∧ decode 0x0402 = .ok (.brz 2) ∧
  decode 0x0200 = .ok (.brp 0) ∧ decode 0x0C04 = .ok (.brnz 4) ∧
  decode 0x0601 = .ok (.brzp 1) ∧ decode 0x0A04 = .ok (.brnp 4) ∧
  decode 0x0E05 = .ok (.brnzp 5) ∧ decode 0x2A00 = .ok (.ld 5 0) ∧
  decode 0xA000 = .ok (.ldi 0 0) ∧ decode 0x3001 = .ok (.st 0 1) ∧
  decode 0xB201 = .ok (.sti 1 1) ∧ decode 0xF025 = .ok (.trap 0x25) ∧
  decode 0xF019 = .error .trapVector

/-- R81: the words of ADD register form, and its result: the sum wrapped to 16 bits, to the destination and
the flag, next index, nothing else changed and no fault. -/
def Obligations.AddRegisterForm : Prop :=
  (∀ w : Word, (∃ d a b, decode w = .ok (.addReg d a b)) ↔ w &&& 0xF038 = 0x1000) ∧
  ∀ (d a b : Reg),
    decode (BitVec.ofNat 16 (0x1000 + 512 * d.val + 64 * a.val + b.val)) = .ok (.addReg d a b) ∧
    ∀ s : State, exec (.addReg d a b) s =
      .next (resultState s d (wrap16 (s16 (readReg s a) + s16 (readReg s b))))

/-- R82: the words of ADD immediate form, and its result for every immediate in -16 to 15. -/
def Obligations.AddImmediateForm : Prop :=
  (∀ w : Word, (∃ d a imm, decode w = .ok (.addImm d a imm)) ↔ w &&& 0xF020 = 0x1020) ∧
  ∀ (d a : Reg) (imm : Int), -16 ≤ imm → imm ≤ 15 →
    decode (BitVec.ofNat 16 (0x1020 + 512 * d.val + 64 * a.val + (imm % 32).toNat)) =
      .ok (.addImm d a imm) ∧
    ∀ s : State, exec (.addImm d a imm) s =
      .next (resultState s d (wrap16 (s16 (readReg s a) + imm)))

/-- R83: the words of AND register form, and its result: the bitwise AND of the two patterns. -/
def Obligations.AndRegisterForm : Prop :=
  (∀ w : Word, (∃ d a b, decode w = .ok (.andReg d a b)) ↔ w &&& 0xF038 = 0x5000) ∧
  ∀ (d a b : Reg),
    decode (BitVec.ofNat 16 (0x5000 + 512 * d.val + 64 * a.val + b.val)) = .ok (.andReg d a b) ∧
    ∀ s : State, exec (.andReg d a b) s = .next (resultState s d (readReg s a &&& readReg s b))

/-- R84: the words of AND immediate form, and its result: the bitwise AND with the sign-extended
immediate. -/
def Obligations.AndImmediateForm : Prop :=
  (∀ w : Word, (∃ d a imm, decode w = .ok (.andImm d a imm)) ↔ w &&& 0xF020 = 0x5020) ∧
  ∀ (d a : Reg) (imm : Int), -16 ≤ imm → imm ≤ 15 →
    decode (BitVec.ofNat 16 (0x5020 + 512 * d.val + 64 * a.val + (imm % 32).toNat)) =
      .ok (.andImm d a imm) ∧
    wrap16 imm = (BitVec.ofInt 5 imm).signExtend 16 ∧
    ∀ s : State, exec (.andImm d a imm) s = .next (resultState s d (readReg s a &&& wrap16 imm))

/-- R85: the words of NOT, and its result: the complement of the pattern, whose signed view is
`-s16(a) - 1`. -/
def Obligations.NotComplements : Prop :=
  (∀ w : Word, (∃ d a, decode w = .ok (.notReg d a)) ↔ w &&& 0xF03F = 0x903F) ∧
  ∀ (d a : Reg),
    decode (BitVec.ofNat 16 (0x903F + 512 * d.val + 64 * a.val)) = .ok (.notReg d a) ∧
    ∀ s : State, exec (.notReg d a) s = .next (resultState s d (0xFFFF ^^^ readReg s a)) ∧
      s16 (0xFFFF ^^^ readReg s a) = -s16 (readReg s a) - 1

/-- R87: the source's own properties of the ALU: the sum is the wrapped sum in the signed range, AND and NOT
are bitwise, and the flag is the result, so its sign is the result's. -/
def Obligations.AluMeetsTheSourceProperties : Prop :=
  ∀ (d a b : Reg) (imm : Int) (s : State), immLegal imm →
    (∃ t, exec (.addReg d a b) s = .next t ∧ t.flag = readReg t d ∧
      ∃ k : Int, s16 (readReg t d) = s16 (readReg s a) + s16 (readReg s b) + 65536 * k ∧
        -32768 ≤ s16 (readReg t d) ∧ s16 (readReg t d) ≤ 32767) ∧
    (∃ t, exec (.addImm d a imm) s = .next t ∧ t.flag = readReg t d ∧
      ∃ k : Int, s16 (readReg t d) = s16 (readReg s a) + imm + 65536 * k ∧
        -32768 ≤ s16 (readReg t d) ∧ s16 (readReg t d) ≤ 32767) ∧
    (∃ t, exec (.andReg d a b) s = .next t ∧ t.flag = readReg t d ∧
      ∀ k, (readReg t d).getLsbD k = ((readReg s a).getLsbD k && (readReg s b).getLsbD k)) ∧
    (∃ t, exec (.andImm d a imm) s = .next t ∧ t.flag = readReg t d ∧
      ∀ k, (readReg t d).getLsbD k =
        ((readReg s a).getLsbD k && (BitVec.ofInt 16 imm).getLsbD k)) ∧
    (∃ t, exec (.notReg d a) s = .next t ∧ t.flag = readReg t d ∧
      ∀ k, k < 16 → (readReg t d).getLsbD k = !(readReg s a).getLsbD k)

/-- The frame of ADD, AND and NOT (R80): only the destination, the flag and `pc` change. -/
def Obligations.AluFrame : Prop :=
  ∀ (d a b : Reg) (imm : Int) (i : Instr) (s t : State), immLegal imm →
    i ∈ [Instr.addReg d a b, .addImm d a imm, .andReg d a b, .andImm d a imm, .notReg d a] →
    exec i s = .next t →
      (∀ r, r ≠ d → readReg t r = readReg s r) ∧ t.flag = readReg t d ∧
      (∀ x, memRead t x = memRead s x) ∧ (∀ l, symResolve t l = symResolve s l) ∧
      t.prog = s.prog ∧ t.run = s.run ∧ t.fault = s.fault

/-- R91 to R99: the eight condition forms of BR. A bound label is resolved first, whether the branch is
taken or not (the spec's decision D16), and a taken branch loads its signed value unchecked (D9). -/
def Obligations.BranchFormsJumpByTheFlagSign : Prop :=
  BranchForm .br 0x0000 (fun _ => True) ∧
  BranchForm .brn 0x0800 (fun f => f < 0) ∧
  BranchForm .brz 0x0400 (fun f => f = 0) ∧
  BranchForm .brp 0x0200 (fun f => 0 < f) ∧
  BranchForm .brnz 0x0C00 (fun f => f ≤ 0) ∧
  BranchForm .brzp 0x0600 (fun f => 0 ≤ f) ∧
  BranchForm .brnp 0x0A00 (fun f => f ≠ 0) ∧
  BranchForm .brnzp 0x0E00 (fun _ => True)

/-- R100, the branch condition matrix: for each form, whether it jumps on a negative, a zero and a positive
flag. The 24 cells are the spec's expansion by rule R90. -/
def Obligations.BranchConditionMatrix : Prop :=
  ∀ (l : Label) (s : State) (v : Word), symResolve s l = some v →
    ∀ row ∈ [(Instr.br l, [true, true, true]), (.brn l, [true, false, false]),
        (.brz l, [false, true, false]), (.brp l, [false, false, true]),
        (.brnz l, [true, true, false]), (.brzp l, [false, true, true]),
        (.brnp l, [true, false, true]), (.brnzp l, [true, true, true])],
      ∀ column ∈ [(0, s16 s.flag < 0), (1, s16 s.flag = 0), (2, 0 < s16 s.flag)], column.2 →
        ∃ t, exec row.1 s = .next t ∧
          t.pc = if row.2[column.1]? = some true then s16 v else s.pc + 1

/-- The frame of BR, all eight forms (R91): nothing but `pc` changes, and on an unbound label nothing but the
fault record and RUN. -/
def Obligations.BranchFrame : Prop :=
  ∀ (l : Label) (i : Instr) (s t : State), i ∈ branchesOn l → exec i s = .next t →
    (∀ r, readReg t r = readReg s r) ∧ t.flag = s.flag ∧ (∀ x, memRead t x = memRead s x) ∧
    (∀ k, symResolve t k = symResolve s k) ∧ t.prog = s.prog ∧
    (symResolve s l ≠ none → t.run = s.run ∧ t.fault = s.fault) ∧
    (symResolve s l = none → t.pc = s.pc)

/-- R105: the words of LD; it loads the label's value, not memory, into the register and the flag; an unbound
label faults with nothing written. -/
def Obligations.LoadTakesTheLabelValue : Prop :=
  (∀ w : Word, (∃ d l, decode w = .ok (.ld d l)) ↔ w &&& 0xF000 = 0x2000) ∧
  ∀ (d : Reg) (l : Label),
    decode (BitVec.ofNat 16 (0x2000 + 512 * d.val + l.val)) = .ok (.ld d l) ∧
    ∀ s : State,
      (∀ v, symResolve s l = some v → exec (.ld d l) s = .next (resultState s d v)) ∧
      (symResolve s l = none → exec (.ld d l) s = .next (faultedState s .unboundLabel (.label l)))

/-- R106: the words of LDI; it loads the cell at the label's value; the faults in their order are UnboundLabel
and BadAddress (the spec's decision D8), with nothing written. -/
def Obligations.LoadIndirectTakesTheCell : Prop :=
  (∀ w : Word, (∃ d l, decode w = .ok (.ldi d l)) ↔ w &&& 0xF000 = 0xA000) ∧
  ∀ (d : Reg) (l : Label),
    decode (BitVec.ofNat 16 (0xA000 + 512 * d.val + l.val)) = .ok (.ldi d l) ∧
    ∀ s : State,
      (∀ a, symResolve s l = some a → 0 ≤ s16 a →
        exec (.ldi d l) s = .next (resultState s d (memRead s (s16 a).toNat))) ∧
      (∀ a, symResolve s l = some a → s16 a < 0 →
        exec (.ldi d l) s = .next (faultedState s .badAddress (.value a))) ∧
      (symResolve s l = none → exec (.ldi d l) s = .next (faultedState s .unboundLabel (.label l)))

/-- R107: the words of ST; it writes the register into the symbol-table entry of a bound label, not into
memory, and does not write the flag; an unbound label faults and stays unbound. -/
def Obligations.StoreWritesTheLabelValue : Prop :=
  (∀ w : Word, (∃ r l, decode w = .ok (.st r l)) ↔ w &&& 0xF000 = 0x3000) ∧
  ∀ (r : Reg) (l : Label),
    decode (BitVec.ofNat 16 (0x3000 + 512 * r.val + l.val)) = .ok (.st r l) ∧
    ∀ s : State,
      (∀ a, symResolve s l = some a → ∃ y, exec (.st r l) s = .next { s with sym := y, pc := s.pc + 1 } ∧
        ∀ k, symResolve { s with sym := y, pc := s.pc + 1 } k =
          if k = l then some (readReg s r) else symResolve s k) ∧
      (symResolve s l = none → exec (.st r l) s = .next (faultedState s .unboundLabel (.label l)))

/-- R108: the words of STI; it writes the register to the cell at the label's value and does not write the
flag; the faults in their order are UnboundLabel and BadAddress (the spec's decision D8). -/
def Obligations.StoreIndirectWritesTheCell : Prop :=
  (∀ w : Word, (∃ r l, decode w = .ok (.sti r l)) ↔ w &&& 0xF000 = 0xB000) ∧
  ∀ (r : Reg) (l : Label),
    decode (BitVec.ofNat 16 (0xB000 + 512 * r.val + l.val)) = .ok (.sti r l) ∧
    ∀ s : State,
      (∀ a, symResolve s l = some a → 0 ≤ s16 a →
        ∃ m, exec (.sti r l) s = .next { s with mem := m, pc := s.pc + 1 } ∧
          ∀ x, memRead { s with mem := m, pc := s.pc + 1 } x =
            if x = (s16 a).toNat then readReg s r else memRead s x) ∧
      (∀ a, symResolve s l = some a → s16 a < 0 →
        exec (.sti r l) s = .next (faultedState s .badAddress (.value a))) ∧
      (symResolve s l = none → exec (.sti r l) s = .next (faultedState s .unboundLabel (.label l)))

/-- The frame of LD and LDI (R105, R106, R110): only the destination, the flag and `pc` change, and on a
fault nothing but the fault record and RUN. -/
def Obligations.LoadFrame : Prop :=
  ∀ (d : Reg) (l : Label) (i : Instr) (s t : State), i ∈ [Instr.ld d l, .ldi d l] →
    exec i s = .next t →
      (∀ r, r ≠ d → readReg t r = readReg s r) ∧ (∀ x, memRead t x = memRead s x) ∧
      (∀ k, symResolve t k = symResolve s k) ∧ t.prog = s.prog ∧
      ((t.run = s.run ∧ t.fault = s.fault ∧ t.flag = readReg t d) ∨
        (t.run = .faulted ∧ t.fault.index = s.pc ∧ t.flag = s.flag ∧ readReg t d = readReg s d ∧
          t.pc = s.pc))

/-- The frame of ST (R107, R110): only the entry of its label and `pc` change, and on a fault nothing but the
fault record and RUN. -/
def Obligations.StoreFrame : Prop :=
  ∀ (r : Reg) (l : Label) (s t : State), exec (.st r l) s = .next t →
    (∀ j, readReg t j = readReg s j) ∧ t.flag = s.flag ∧ (∀ x, memRead t x = memRead s x) ∧
    (∀ k, k ≠ l → symResolve t k = symResolve s k) ∧ (∀ k, isBound t k = isBound s k) ∧
    t.prog = s.prog ∧
    (symResolve s l ≠ none → t.run = s.run ∧ t.fault = s.fault) ∧
    (symResolve s l = none → t.pc = s.pc)

/-- The frame of STI (R108, R110): only the cell at the effective address of its label's value and `pc`
change, and on a fault nothing but the fault record and RUN. -/
def Obligations.StoreIndirectFrame : Prop :=
  ∀ (r : Reg) (l : Label) (s t : State), exec (.sti r l) s = .next t →
    (∀ j, readReg t j = readReg s j) ∧ t.flag = s.flag ∧
    (∀ k, symResolve t k = symResolve s k) ∧ t.prog = s.prog ∧
    (∀ v a, symResolve s l = some v → effAddr v = some a →
      (∀ x, x ≠ a → memRead t x = memRead s x) ∧ t.run = s.run ∧ t.fault = s.fault) ∧
    ((symResolve s l).bind effAddr = none →
      (∀ x, memRead t x = memRead s x) ∧ t.pc = s.pc)

/-- R115: the word of TRAP x25; it ends the run and changes nothing else, `pc` included; no instruction
executes after it. -/
def Obligations.TrapHalts : Prop :=
  (∀ w : Word, (∃ v, decode w = .ok (.trap v)) ↔ w = 0xF025) ∧
  decode 0xF025 = .ok (.trap 0x25) ∧
  ∀ s : State,
    exec (.trap 0x25) s = .next { s with run := .halted } ∧
    (s.run = .halted → step s = .fault .halted)

/-- The frame of TRAP x25 (R115): every register, the flag, every cell, every label, the store, `pc` and the
fault record stay. -/
def Obligations.TrapFrame : Prop :=
  ∀ s t : State, exec (.trap 0x25) s = .next t →
    (∀ r, readReg t r = readReg s r) ∧ t.flag = s.flag ∧ (∀ x, memRead t x = memRead s x) ∧
    (∀ k, symResolve t k = symResolve s k) ∧ t.prog = s.prog ∧ t.pc = s.pc ∧ t.fault = s.fault

/-- An ill-formed instruction value never executes: the decoder never yields one (30_encoding.md section 6,
R64), and executing one is the configuration error, which is the model's choice (notes/assumptions/8.md). -/
def Obligations.IllFormedInstructionsNeverExecute : Prop :=
  (∀ (w : Word) (i : Instr), decode w = .ok i → i.wellFormed = true) ∧
  ∀ (i : Instr) (s : State), i.wellFormed = false →
    exec i s = .next (faultedState s .configurationError (.argument i.offender))

/-- R46, the round trip of the source: STI then LDI through the same label gives the register back, in the
register and the flag, if the label is bound to a non-negative value; otherwise both fault. -/
def Obligations.StoreIndirectThenLoadIndirect : Prop :=
  ∀ (r r2 : Reg) (l : Label) (s : State),
    (∀ a, symResolve s l = some a → 0 ≤ s16 a →
      ∃ t u, exec (.sti r l) s = .next t ∧ exec (.ldi r2 l) t = .next u ∧
        readReg u r2 = readReg t r ∧ readReg t r = readReg s r ∧ u.flag = readReg s r) ∧
    ((∀ a, symResolve s l = some a → s16 a < 0) →
      ∃ t u, exec (.sti r l) s = .next t ∧ t.run = .faulted ∧
        exec (.ldi r2 l) s = .next u ∧ u.run = .faulted)

/-- 20_memory.md section 5 (R44, which the spec marks as derived): what ST writes to a label is what the very
next LD of it loads and where the very next BR to it jumps. -/
def Obligations.StoreRedirectsTheLabel : Prop :=
  ∀ (r d : Reg) (l : Label) (s : State) (a : Word), symResolve s l = some a →
    ∃ t, exec (.st r l) s = .next t ∧
      (∃ u, exec (.ld d l) t = .next u ∧ readReg u d = readReg s r) ∧
      exec (.br l) t = .next { t with pc := s16 (readReg s r) }

/-- 42_load_store.md section 5 (R111): one table and one lookup: LD of a position label yields its index, and
BR to a constant label jumps to the constant. -/
def Obligations.LabelsServeAsIndexAndAsData : Prop :=
  ∀ (s : State) (l : Label) (d : Reg) (v : Word), s.run = .loading →
    (progLen s ≤ 32767 →
      ∃ t, exec (.ld d l) (hostStep (.bindPositionLabel l.val) s).2 = .next t ∧
        s16 (readReg t d) = (progLen s : Int)) ∧
    ∃ t, exec (.br l) (hostStep (.bindConstantLabel l.val v) s).2 = .next t ∧ t.pc = s16 v

/-- 60_exceptions.md section 2 (R125): while the engine runs, a word at `pc` that decodes to an instruction
makes the step the execution of that instruction, with nothing around it. -/
def Obligations.StepRunsTheDecodedInstruction : Prop :=
  ∀ (s : State) (w : Word) (i : Instr), s.run = .running →
    progFetch s s.pc = some w → decode w = .ok i → step s = exec i s

/-- 70_reset_and_hazards.md sections 3 and 4 (R156, R160, which the spec marks as derived) and
10_state.md section 7: the running engine has exactly one next state, and outside Running there is none; the
names of the stops are the model's (notes/assumptions/2.md). -/
def Obligations.EngineStepsExactlyWhileRunning : Prop :=
  ∀ s : State,
    ((∃! t, step s = .next t) ↔ s.run = .running) ∧
    (s.run = .loading → step s = .fault .notStarted) ∧
    (s.run = .halted → step s = .fault .halted) ∧
    (s.run = .faulted → step s = .fault (.faulted s.fault))

/-- 60_exceptions.md sections 1 to 3 (R120 to R126): the running engine that fetches an illegal word raises
the configuration error with that word; and a step that ends in Faulted changed nothing but RUN and the
fault record, and the record is that of the first check that failed: fetch, decode, label, address. -/
def Obligations.StepFaultsArePreciseAndOrdered : Prop :=
  (∀ (s : State) (w : Word) (r : DecodeReject), s.run = .running →
    progFetch s s.pc = some w → decode w = .error r →
    step s = .next (faultedState s .configurationError (.word w))) ∧
  ∀ s t : State, step s = .next t → t.run = .faulted →
    (progFetch s s.pc = none ∧ t = faultedState s .outOfRange (.index s.pc)) ∨
    (∃ w r, progFetch s s.pc = some w ∧ decode w = .error r ∧
      t = faultedState s .configurationError (.word w)) ∨
    (∃ i l, Fetches s i ∧ i.labelOperand = some l ∧ symResolve s l = none ∧
      t = faultedState s .unboundLabel (.label l)) ∨
    (∃ i l a, Fetches s i ∧ i.usesAddress = true ∧ i.labelOperand = some l ∧
      symResolve s l = some a ∧ s16 a < 0 ∧ t = faultedState s .badAddress (.value a))

/-- 43_trap.md (R115) and 60_exceptions.md section 3 (R128): only a fetched TRAP x25 takes the machine to
Halted, and nothing else changes. -/
def Obligations.OnlyTheTrapHalts : Prop :=
  ∀ s t : State, step s = .next t → t.run = .halted →
    progFetch s s.pc = some 0xF025 ∧ t = { s with run := .halted }

/-- 41_branch.md section 3 (R101): while the run goes on, only a branch, by the value of its bound label,
sets `pc` to anything but the next index. -/
def Obligations.OnlyBranchesLeaveTheSequence : Prop :=
  ∀ s t : State, step s = .next t → t.run = .running →
    t.pc = s.pc + 1 ∨
    ∃ i l a, Fetches s i ∧ i ∈ branchesOn l ∧ symResolve s l = some a ∧ t.pc = s16 a

/-- 10_state.md section 3 (R13): a step writes the flag exactly with the result it writes to a destination
register, so BR, ST, STI, TRAP and every fault leave it. -/
def Obligations.FlagIsTheLastResult : Prop :=
  ∀ (s t : State) (i : Instr), step s = .next t → Fetches s i →
    (i.dest = none → t.flag = s.flag) ∧
    (t.run = .faulted → t.flag = s.flag) ∧
    (∀ d, i.dest = some d → t.run ≠ .faulted → t.flag = readReg t d)

/-- 10_state.md sections 4 and 6 (R14, R16), 20_memory.md section 5 (R44): no run of any length changes the
program store or the set of bound labels. -/
def Obligations.RunsKeepProgramAndBoundLabels : Prop :=
  ∀ (k : Nat) (s t : State), Host.Core.run Sys2Proof.core k s = .next t →
    t.prog = s.prog ∧ ∀ l, isBound t l = isBound s l

/-- Every step of the engine keeps the invariant: canonical memory and symbol table, the store in size and
legal, `pc` in its range, the fault record set exactly in Faulted, Halted at the TRAP. -/
def Obligations.StepKeepsTheInvariant : Prop :=
  ∀ s t : State, s.Inv → step s = .next t → t.Inv

/-- Every operation of the host keeps the invariant. -/
def Obligations.HostOperationsKeepTheInvariant : Prop :=
  ∀ (op : HostOp) (s : State), s.Inv → (hostStep op s).2.Inv

/-- Every state that the host and the engine reach from a reset meets the invariant, and the second line of
the decoder is never reached in one (60_exceptions.md section 1, R121, which the spec marks as derived). -/
def Obligations.ReachableStatesAreSound : Prop :=
  ∀ s : State, Reachable s →
    s.Inv ∧ (∀ w, progFetch s s.pc = some w → ∃ i, decode w = .ok i) ∧
    (s.run = .running → ∀ t, step s = .next t → t.fault.kind ≠ .configurationError)

/-- 20_memory.md section 3 (R36, decision D8 of the spec): a program neither writes nor learns the cells
32768 and above. -/
def Obligations.UpperMemoryIsOutOfReach : Prop :=
  (∀ s t : State, step s = .next t → ∀ a, 32768 ≤ a → memRead t a = memRead s a) ∧
  ∀ s s' t : State, AgreeBelow s s' → step s = .next t →
    ∃ t', step s' = .next t' ∧ AgreeBelow t t'

/-- 70_reset_and_hazards.md section 2 (R151) and 60_exceptions.md section 1 (R121): `appendInstruction` in
Loading: a legal word goes to index `PROG_LEN` while there is room, labels unchecked; anything else is the
configuration error with the store unchanged. Outside Loading it does nothing. It adds at most one word,
a legal one, at the end of the store, and no other operation but reset changes the store. That the recorded
info is the word also for a full store, and the immediate or vector for an ill-formed value, is the model's
reading (DEDUCED, notes/assumptions/11.md); the clauses on instruction values stand at the abstract level
that the model keeps beside the binary one (DESIGN CHOICE, notes/assumptions/3.md). -/
def Obligations.AppendInstructionExtendsTheStore : Prop :=
  (∀ (s : State) (w : Word), s.run = .loading →
    ((∃ i, decode w = .ok i) → progLen s < 32768 →
      hostStep (.appendWord w) s = (.index (progLen s), { s with prog := s.prog ++ [w] })) ∧
    ((∃ r, decode w = .error r) ∨ 32768 ≤ progLen s →
      hostStep (.appendWord w) s = (.refused, refusedLoad s (.word w))) ∧
    (∀ i : Instr, i.wellFormed = true →
      hostStep (.appendInstr i) s = hostStep (.appendWord (encode i)) s) ∧
    (∀ i : Instr, i.wellFormed = false →
      hostStep (.appendInstr i) s = (.refused, refusedLoad s (.argument i.offender)))) ∧
  (∀ (s : State) (w : Word) (i : Instr), s.run ≠ .loading →
    hostStep (.appendWord w) s = (.refused, s) ∧ hostStep (.appendInstr i) s = (.refused, s)) ∧
  (∀ (s : State) (op : HostOp), (∀ f, op ≠ .reset f) →
    (hostStep op s).2.prog = s.prog ∨
      ((∃ w, op = .appendWord w) ∨ ∃ i, op = .appendInstr i) ∧
      ∃ w i, decode w = .ok i ∧ (hostStep op s).2.prog = s.prog ++ [w]) ∧
  ∀ (s : State) (op : HostOp), (∀ f, op ≠ .reset f) → (∀ w, op ≠ .appendWord w) →
    (∀ i, op ≠ .appendInstr i) → (hostStep op s).2.prog = s.prog

/-- R152: the two bindings in Loading: the label becomes bound to the wrapped store length or to the literal,
bound before or not, and no other label changes; for a store that is not full the value is the index
itself; the two leave no trace of which one wrote the entry; outside Loading neither does anything. -/
def Obligations.BindingSetsTheLabel : Prop :=
  ∀ (s : State) (l : Label) (v : Word),
    (s.run = .loading →
      (∃ t, hostStep (.bindPositionLabel l.val) s = (.done, t) ∧
        (∃ y, t = { s with sym := y }) ∧
        ∀ k, symResolve t k = if k = l then some (wrap16 (progLen s)) else symResolve s k) ∧
      (∃ t, hostStep (.bindConstantLabel l.val v) s = (.done, t) ∧
        (∃ y, t = { s with sym := y }) ∧
        ∀ k, symResolve t k = if k = l then some v else symResolve s k)) ∧
    hostStep (.bindPositionLabel l.val) s =
      hostStep (.bindConstantLabel l.val (wrap16 (progLen s))) s ∧
    (progLen s ≤ 32767 → s16 (wrap16 (progLen s)) = (progLen s : Int)) ∧
    (progLen s = 32768 → s16 (wrap16 (progLen s)) = -32768) ∧
    (s.run ≠ .loading → hostStep (.bindPositionLabel l.val) s = (.refused, s) ∧
      hostStep (.bindConstantLabel l.val v) s = (.refused, s))

/-- 70_reset_and_hazards.md section 2 (R153): `setMemory` in Loading seeds one cell, and `beginExecution` in
Loading sets `pc` to 0 and RUN to Running, checking nothing; outside Loading neither does anything. -/
def Obligations.SeedingAndStarting : Prop :=
  ∀ (s : State) (a : Nat) (v : Word), a < 65536 →
    (s.run = .loading →
      (∃ t, hostStep (.setMemory a v) s = (.done, t) ∧ (∃ m, t = { s with mem := m }) ∧
        ∀ x, memRead t x = if x = a then v else memRead s x) ∧
      hostStep .beginExecution s = (.done, { s with pc := 0, run := .running })) ∧
    (s.run ≠ .loading → hostStep (.setMemory a v) s = (.refused, s) ∧
      hostStep .beginExecution s = (.refused, s))

/-- 70_reset_and_hazards.md sections 1 and 6 (R150, R162) and 60_exceptions.md section 1 (R121): while the
engine runs every operation of the host is refused and changes nothing; after a run no operation but reset
changes anything, and reset leaves a fresh machine in which nothing survives. That reset is refused while
running, and accepted in Loading, is the model's reading (DESIGN CHOICE, notes/assumptions/10.md). -/
def Obligations.HostNeverAltersARun : Prop :=
  ∀ (op : HostOp) (s : State),
    (s.run = .running → hostStep op s = (.refused, s)) ∧
    (s.run ≠ .loading → (∀ f, op ≠ .reset f) → (hostStep op s).2 = s) ∧
    (∀ f, s.run = .halted ∨ s.run = .faulted → hostStep (.reset f) s = (.done, State.resetWith f)) ∧
    (∀ f, s.run = .loading → hostStep (.reset f) s = (.done, State.resetWith f))

/-- 60_exceptions.md section 1 (R121, decision D21 of the spec): an argument out of range is the configuration
error in Loading, with `FAULT.index = PROG_LEN` and nothing else changed. -/
def Obligations.BadHostArgumentsAreConfigurationErrors : Prop :=
  ∀ (s : State) (n : Int) (v : Word), s.run = .loading →
    (n < 0 ∨ 65536 ≤ n →
      hostStep (.setMemory n v) s = (.refused, refusedLoad s (.argument n)) ∧
      hostStep (.getMemory n) s = (.refused, refusedLoad s (.argument n))) ∧
    (n < 0 ∨ 512 ≤ n →
      hostStep (.bindPositionLabel n) s = (.refused, refusedLoad s (.argument n)) ∧
      hostStep (.bindConstantLabel n v) s = (.refused, refusedLoad s (.argument n)))

/-- 70_reset_and_hazards.md section 2 (R155): whatever the host does after a reset, if the engine is then
running it is in a launch state, and the flag is still that of the reset unless the host reset again. -/
def Obligations.LoadingEndsInALaunchState : Prop :=
  ∀ (ops : List HostOp) (f : Word), (hostRun ops (State.resetWith f)).run = .running →
    (hostRun ops (State.resetWith f)).Launch ∧
    ((∀ g, HostOp.reset g ∉ ops) → (hostRun ops (State.resetWith f)).flag = f)

/-- 70_reset_and_hazards.md sections 3 and 6 (R156, R162) and 20_memory.md section 6 (R47): before and after a
run the host reads every cell; after it every register, RUN, `pc` and the fault record too; and the reads
change nothing. -/
def Obligations.HostInspectsAfterTheRun : Prop :=
  (∀ (s : State) (a : Nat), s.run = .loading → a < 65536 →
    hostStep (.getMemory a) s = (.value (memRead s a), s)) ∧
  ∀ (s : State) (a : Nat) (r : Reg), s.run = .halted ∨ s.run = .faulted → a < 65536 →
    hostStep (.getMemory a) s = (.value (memRead s a), s) ∧
    hostStep (.readRegister r) s = (.value (readReg s r), s) ∧
    hostStep .readRun s = (.runState s.run, s) ∧
    hostStep .readPc s = (.pc s.pc, s) ∧
    hostStep .readFault s = (.record s.fault, s)
end

