-- ==== Sys2Proof/Laws/Cells.lean ====
section
/-! SUPPORT. The laws of sparse storage: read after write, and that every operation keeps the canonical form. -/

namespace Sys2Proof.Machine

/-- Reading after an insert, whatever the cells. -/
theorem lookup_insert (cells : List (Nat × Word)) (a b : Nat) (v : Word) :
    Cells.lookup (Cells.insert cells a v) b = if b = a then some v else Cells.lookup cells b := by
  induction cells with
  | nil => simp [Cells.insert, Cells.lookup]
  | cons c rest ih =>
    obtain ⟨k, u⟩ := c
    simp only [Cells.insert]
    split
    · simp [Cells.lookup]
    · split
      · subst_vars
        simp only [Cells.lookup]
        split <;> rfl
      · simp only [Cells.lookup, ih]
        by_cases hbk : b = k
        · subst hbk
          have : ¬ b = a := fun h => by omega
          simp [this]
        · simp [hbk]

/-- Reading after an erase, whatever the cells. -/
theorem lookup_erase (cells : List (Nat × Word)) (a b : Nat) :
    Cells.lookup (Cells.erase cells a) b = if b = a then none else Cells.lookup cells b := by
  induction cells with
  | nil => simp [Cells.erase, Cells.lookup]
  | cons c rest ih =>
    obtain ⟨k, u⟩ := c
    simp only [Cells.erase] at ih ⊢
    by_cases hka : k = a
    · subst hka
      simp only [List.filter_cons, bne_self_eq_false, Cells.lookup]
      simp only [Bool.false_eq_true, ↓reduceIte, ih]
      split <;> rfl
    · simp only [List.filter_cons, bne_iff_ne, ne_eq, hka, not_false_eq_true, ↓reduceIte,
        Cells.lookup, ih]
      by_cases hbk : b = k
      · subst hbk; simp [hka]
      · simp [hbk]

/-- An entry after an insert is the inserted one or an old one. -/
theorem mem_insert {cells : List (Nat × Word)} {a : Nat} {v : Word} {c : Nat × Word}
    (h : c ∈ Cells.insert cells a v) : c = (a, v) ∨ c ∈ cells := by
  induction cells with
  | nil => exact .inl (by simpa [Cells.insert] using h)
  | cons d rest ih =>
    obtain ⟨k, u⟩ := d
    simp only [Cells.insert] at h
    split at h
    · simpa using h
    · split at h
      · rcases List.mem_cons.mp h with h | h
        · exact .inl h
        · exact .inr (List.mem_cons_of_mem _ h)
      · rcases List.mem_cons.mp h with h | h
        · exact .inr (h ▸ List.mem_cons_self)
        · rcases ih h with h | h
          · exact .inl h
          · exact .inr (List.mem_cons_of_mem _ h)

theorem rising_insert {cells : List (Nat × Word)} (a : Nat) (v : Word) (h : Cells.Rising cells) :
    Cells.Rising (Cells.insert cells a v) := by
  induction cells with
  | nil => simp [Cells.insert]
  | cons d rest ih =>
    obtain ⟨k, u⟩ := d
    obtain ⟨hk, hrest⟩ := List.pairwise_cons.mp h
    simp only [Cells.insert]
    split
    · rename_i hak
      refine List.pairwise_cons.mpr ⟨fun c hc => ?_, h⟩
      rcases List.mem_cons.mp hc with rfl | hc
      · exact hak
      · exact hak.trans (hk c hc)
    · split
      · subst_vars
        exact List.pairwise_cons.mpr ⟨hk, hrest⟩
      · refine List.pairwise_cons.mpr ⟨fun c hc => ?_, ih hrest⟩
        rcases mem_insert hc with rfl | hc
        · simp only; omega
        · exact hk c hc

theorem rising_erase {cells : List (Nat × Word)} (a : Nat) (h : Cells.Rising cells) :
    Cells.Rising (Cells.erase cells a) := List.Pairwise.filter _ h

/-- Every operation on MEM keeps its canonical form. -/
theorem memory_wf_write {m : Memory} {a : Nat} (v : Word) (h : Memory.wf m)
    (ha : a < Config.memCells) : Memory.wf (m.write a v) := by
  obtain ⟨hr, hm⟩ := h
  unfold Memory.write
  split
  · exact ⟨rising_erase a hr, fun c hc => hm c (List.mem_of_mem_filter hc)⟩
  · rename_i hv
    refine ⟨rising_insert a v hr, fun c hc => ?_⟩
    rcases mem_insert hc with rfl | hc
    · exact ⟨ha, hv⟩
    · exact hm c hc

/-- Binding a label keeps the canonical form of SYM. -/
theorem symTable_wf_insert {t : SymTable} {l : Nat} (v : Word) (h : SymTable.wf t)
    (hl : l < Config.numLabels) : SymTable.wf (Cells.insert t l v) := by
  obtain ⟨hr, hm⟩ := h
  refine ⟨rising_insert l v hr, fun c hc => ?_⟩
  rcases mem_insert hc with rfl | hc
  · exact hl
  · exact hm c hc

theorem memory_wf_reset (f : Word) : Memory.wf (State.resetWith f).mem :=
  ⟨List.Pairwise.nil, fun _ h => absurd h List.not_mem_nil⟩

/-- Reading MEM after a write, whatever the memory. -/
theorem memory_read_write (m : Memory) (a b : Nat) (v : Word) :
    (m.write a v).read b = if b = a then v else m.read b := by
  unfold Memory.write Memory.read
  split
  · subst_vars
    rw [lookup_erase]
    split <;> rfl
  · rw [lookup_insert]
    split <;> rfl

end Sys2Proof.Machine
end

