-- ==== Sys2Proof/Laws/Decode.lean ====
section
/-! SUPPORT. The fields of a word as arithmetic on its number, so that facts about encodings are closed by
linear arithmetic. -/

namespace Sys2Proof

theorem opcodeField_eq (w : Word) : opcodeField w = w.toNat / 4096 := by
  have := w.isLt
  rw [opcodeField, BitVec.extractLsb'_toNat, Nat.shiftRight_eq_div_pow]
  exact Nat.mod_eq_of_lt (by omega)

theorem regField_val (w : Word) (lo : Nat) : (regField w lo).val = w.toNat / 2 ^ lo % 8 := by
  simp only [regField, BitVec.val_toFin, BitVec.extractLsb'_toNat, Nat.shiftRight_eq_div_pow]

theorem labelField_val (w : Word) : (labelField w).val = w.toNat % 512 := by
  simp only [labelField, BitVec.val_toFin, BitVec.extractLsb'_toNat, Nat.shiftRight_eq_div_pow]
  norm_num

theorem vectorField_eq (w : Word) : vectorField w = w.toNat % 256 := by
  simp only [vectorField, BitVec.extractLsb'_toNat, Nat.shiftRight_eq_div_pow]
  norm_num

theorem immField_eq (w : Word) :
    immField w = if w.toNat % 32 < 16 then ((w.toNat % 32 : Nat) : Int)
      else ((w.toNat % 32 : Nat) : Int) - 32 := by
  simp only [immField, BitVec.toInt_eq_toNat_cond, BitVec.extractLsb'_toNat,
    Nat.shiftRight_eq_div_pow]
  norm_num
  split <;> split <;> omega

/-- Any field is the number's digits from its lowest bit. -/
theorem extract_toNat (w : Word) (lo len : Nat) :
    (w.extractLsb' lo len).toNat = w.toNat / 2 ^ lo % 2 ^ len := by
  rw [BitVec.extractLsb'_toNat, Nat.shiftRight_eq_div_pow]

/-- A field is all of a given pattern when its digits are. -/
theorem extract_eq_iff (w : Word) (lo len : Nat) (v : BitVec len) :
    w.extractLsb' lo len = v ↔ w.toNat / 2 ^ lo % 2 ^ len = v.toNat := by
  rw [← BitVec.toNat_inj, extract_toNat]

/-- A bit as arithmetic. -/
theorem getLsbD_eq (w : Word) (i : Nat) : w.getLsbD i = decide (w.toNat / 2 ^ i % 2 = 1) := by
  simp only [BitVec.getLsbD, Nat.testBit, Nat.shiftRight_eq_div_pow, Nat.one_and_eq_mod_two]
  rcases Nat.mod_two_eq_zero_or_one (w.toNat / 2 ^ i) with h | h <;> simp [h]

/-- The form bit of ADD and AND, bit 5, as arithmetic. -/
theorem formBit_iff (w : Word) : w.getLsbD 5 = true ↔ w.toNat / 32 % 2 = 1 := by
  rw [getLsbD_eq, decide_eq_true_iff]
  norm_num

/-- A word matches a mask and its bits when each of its 16 digits does. -/
theorem and_eq_iff (w mask bits : Word) :
    w &&& mask = bits ↔
      ∀ i : Fin 16, (decide (w.toNat / 2 ^ i.val % 2 = 1) && mask.getLsbD i.val) = bits.getLsbD i.val := by
  constructor
  · rintro rfl i
    rw [BitVec.getLsbD_and, getLsbD_eq w]
  · intro h
    refine BitVec.eq_of_getLsbD_eq fun i hi => ?_
    rw [BitVec.getLsbD_and, getLsbD_eq w]
    exact h ⟨i, hi⟩

/-- The immediate field is always a legal immediate. -/
theorem immField_range (w : Word) : immLegal (immField w) := by
  rw [immField_eq]
  simp only [immLegal, Config.immMin, Config.immMax]
  split <;> omega

/-- The vector of a well-formed TRAP is the halt vector. -/
theorem vector_of_wellFormed {v : Nat} (h : (Instr.trap v).wellFormed = true) : v = 0x25 :=
  of_decide_eq_true h

theorem encodeNat_lt (i : Instr) (h : i.wellFormed = true) : encodeNat i < 65536 := by
  cases i with
  | trap v => simp only [encodeNat, vector_of_wellFormed h]; omega
  | _ => simp only [encodeNat]; omega

/-- The number of the word of a well-formed instruction is the number its formula gives. -/
theorem encode_toNat (i : Instr) (h : i.wellFormed = true) : (encode i).toNat = encodeNat i := by
  simp only [encode, BitVec.toNat_ofNat]
  exact Nat.mod_eq_of_lt (encodeNat_lt i h)

end Sys2Proof
end

