-- ==== Sys2Proof/Laws/State.lean ====
section
/-! SUPPORT. One lemma per field of the state per update, each true by unfolding the update once, so that no
later proof unfolds a record update. -/

namespace Sys2Proof.Machine

@[simp] theorem resetWith_regs (f : Word) : (State.resetWith f).regs = Vector.replicate 8 0 := rfl
@[simp] theorem resetWith_pc (f : Word) : (State.resetWith f).pc = 0 := rfl
@[simp] theorem resetWith_flag (f : Word) : (State.resetWith f).flag = f := rfl
@[simp] theorem resetWith_sym (f : Word) : (State.resetWith f).sym = [] := rfl
@[simp] theorem resetWith_mem (f : Word) : (State.resetWith f).mem = [] := rfl
@[simp] theorem resetWith_prog (f : Word) : (State.resetWith f).prog = [] := rfl
@[simp] theorem resetWith_run (f : Word) : (State.resetWith f).run = .loading := rfl
@[simp] theorem resetWith_fault (f : Word) : (State.resetWith f).fault = FaultRecord.clear := rfl

@[simp] theorem writeReg_regs (s : State) (i : Reg) (v : Word) : (writeReg s i v).regs = s.regs.set i v := rfl
@[simp] theorem writeReg_pc (s : State) (i : Reg) (v : Word) : (writeReg s i v).pc = s.pc := rfl
@[simp] theorem writeReg_flag (s : State) (i : Reg) (v : Word) : (writeReg s i v).flag = s.flag := rfl
@[simp] theorem writeReg_sym (s : State) (i : Reg) (v : Word) : (writeReg s i v).sym = s.sym := rfl
@[simp] theorem writeReg_mem (s : State) (i : Reg) (v : Word) : (writeReg s i v).mem = s.mem := rfl
@[simp] theorem writeReg_prog (s : State) (i : Reg) (v : Word) : (writeReg s i v).prog = s.prog := rfl
@[simp] theorem writeReg_run (s : State) (i : Reg) (v : Word) : (writeReg s i v).run = s.run := rfl
@[simp] theorem writeReg_fault (s : State) (i : Reg) (v : Word) : (writeReg s i v).fault = s.fault := rfl

@[simp] theorem setFlag_regs (s : State) (v : Word) : (setFlag s v).regs = s.regs := rfl
@[simp] theorem setFlag_pc (s : State) (v : Word) : (setFlag s v).pc = s.pc := rfl
@[simp] theorem setFlag_flag (s : State) (v : Word) : (setFlag s v).flag = v := rfl
@[simp] theorem setFlag_sym (s : State) (v : Word) : (setFlag s v).sym = s.sym := rfl
@[simp] theorem setFlag_mem (s : State) (v : Word) : (setFlag s v).mem = s.mem := rfl
@[simp] theorem setFlag_prog (s : State) (v : Word) : (setFlag s v).prog = s.prog := rfl
@[simp] theorem setFlag_run (s : State) (v : Word) : (setFlag s v).run = s.run := rfl
@[simp] theorem setFlag_fault (s : State) (v : Word) : (setFlag s v).fault = s.fault := rfl

@[simp] theorem setPc_regs (s : State) (t : Int) : (setPc s t).regs = s.regs := rfl
@[simp] theorem setPc_pc (s : State) (t : Int) : (setPc s t).pc = t := rfl
@[simp] theorem setPc_flag (s : State) (t : Int) : (setPc s t).flag = s.flag := rfl
@[simp] theorem setPc_sym (s : State) (t : Int) : (setPc s t).sym = s.sym := rfl
@[simp] theorem setPc_mem (s : State) (t : Int) : (setPc s t).mem = s.mem := rfl
@[simp] theorem setPc_prog (s : State) (t : Int) : (setPc s t).prog = s.prog := rfl
@[simp] theorem setPc_run (s : State) (t : Int) : (setPc s t).run = s.run := rfl
@[simp] theorem setPc_fault (s : State) (t : Int) : (setPc s t).fault = s.fault := rfl

@[simp] theorem advance_regs (s : State) : (advance s).regs = s.regs := rfl
@[simp] theorem advance_pc (s : State) : (advance s).pc = s.pc + 1 := rfl
@[simp] theorem advance_flag (s : State) : (advance s).flag = s.flag := rfl
@[simp] theorem advance_sym (s : State) : (advance s).sym = s.sym := rfl
@[simp] theorem advance_mem (s : State) : (advance s).mem = s.mem := rfl
@[simp] theorem advance_prog (s : State) : (advance s).prog = s.prog := rfl
@[simp] theorem advance_run (s : State) : (advance s).run = s.run := rfl
@[simp] theorem advance_fault (s : State) : (advance s).fault = s.fault := rfl

@[simp] theorem setRun_regs (s : State) (r : RunState) : (setRun s r).regs = s.regs := rfl
@[simp] theorem setRun_pc (s : State) (r : RunState) : (setRun s r).pc = s.pc := rfl
@[simp] theorem setRun_flag (s : State) (r : RunState) : (setRun s r).flag = s.flag := rfl
@[simp] theorem setRun_sym (s : State) (r : RunState) : (setRun s r).sym = s.sym := rfl
@[simp] theorem setRun_mem (s : State) (r : RunState) : (setRun s r).mem = s.mem := rfl
@[simp] theorem setRun_prog (s : State) (r : RunState) : (setRun s r).prog = s.prog := rfl
@[simp] theorem setRun_run (s : State) (r : RunState) : (setRun s r).run = r := rfl
@[simp] theorem setRun_fault (s : State) (r : RunState) : (setRun s r).fault = s.fault := rfl

@[simp] theorem memWrite_regs (s : State) (a : Nat) (v : Word) : (memWrite s a v).regs = s.regs := rfl
@[simp] theorem memWrite_pc (s : State) (a : Nat) (v : Word) : (memWrite s a v).pc = s.pc := rfl
@[simp] theorem memWrite_flag (s : State) (a : Nat) (v : Word) : (memWrite s a v).flag = s.flag := rfl
@[simp] theorem memWrite_sym (s : State) (a : Nat) (v : Word) : (memWrite s a v).sym = s.sym := rfl
@[simp] theorem memWrite_mem (s : State) (a : Nat) (v : Word) : (memWrite s a v).mem = s.mem.write a v := rfl
@[simp] theorem memWrite_prog (s : State) (a : Nat) (v : Word) : (memWrite s a v).prog = s.prog := rfl
@[simp] theorem memWrite_run (s : State) (a : Nat) (v : Word) : (memWrite s a v).run = s.run := rfl
@[simp] theorem memWrite_fault (s : State) (a : Nat) (v : Word) : (memWrite s a v).fault = s.fault := rfl

@[simp] theorem symBind_regs (s : State) (l : Nat) (v : Word) : (symBind s l v).regs = s.regs := rfl
@[simp] theorem symBind_pc (s : State) (l : Nat) (v : Word) : (symBind s l v).pc = s.pc := rfl
@[simp] theorem symBind_flag (s : State) (l : Nat) (v : Word) : (symBind s l v).flag = s.flag := rfl
@[simp] theorem symBind_sym (s : State) (l : Nat) (v : Word) :
    (symBind s l v).sym = Cells.insert s.sym l v := rfl
@[simp] theorem symBind_mem (s : State) (l : Nat) (v : Word) : (symBind s l v).mem = s.mem := rfl
@[simp] theorem symBind_prog (s : State) (l : Nat) (v : Word) : (symBind s l v).prog = s.prog := rfl
@[simp] theorem symBind_run (s : State) (l : Nat) (v : Word) : (symBind s l v).run = s.run := rfl
@[simp] theorem symBind_fault (s : State) (l : Nat) (v : Word) : (symBind s l v).fault = s.fault := rfl

@[simp] theorem raiseAt_regs (s : State) (k : FaultKind) (n : Int) (info : FaultInfo) :
    (raiseAt s k n info).regs = s.regs := rfl
@[simp] theorem raiseAt_pc (s : State) (k : FaultKind) (n : Int) (info : FaultInfo) :
    (raiseAt s k n info).pc = s.pc := rfl
@[simp] theorem raiseAt_flag (s : State) (k : FaultKind) (n : Int) (info : FaultInfo) :
    (raiseAt s k n info).flag = s.flag := rfl
@[simp] theorem raiseAt_sym (s : State) (k : FaultKind) (n : Int) (info : FaultInfo) :
    (raiseAt s k n info).sym = s.sym := rfl
@[simp] theorem raiseAt_mem (s : State) (k : FaultKind) (n : Int) (info : FaultInfo) :
    (raiseAt s k n info).mem = s.mem := rfl
@[simp] theorem raiseAt_prog (s : State) (k : FaultKind) (n : Int) (info : FaultInfo) :
    (raiseAt s k n info).prog = s.prog := rfl
@[simp] theorem raiseAt_run (s : State) (k : FaultKind) (n : Int) (info : FaultInfo) :
    (raiseAt s k n info).run = .faulted := rfl
@[simp] theorem raiseAt_fault (s : State) (k : FaultKind) (n : Int) (info : FaultInfo) :
    (raiseAt s k n info).fault = ⟨k, n, info⟩ := rfl

@[simp] theorem raise_regs (s : State) (k : FaultKind) (info : FaultInfo) :
    (raise s k info).regs = s.regs := rfl
@[simp] theorem raise_pc (s : State) (k : FaultKind) (info : FaultInfo) : (raise s k info).pc = s.pc := rfl
@[simp] theorem raise_flag (s : State) (k : FaultKind) (info : FaultInfo) :
    (raise s k info).flag = s.flag := rfl
@[simp] theorem raise_sym (s : State) (k : FaultKind) (info : FaultInfo) : (raise s k info).sym = s.sym := rfl
@[simp] theorem raise_mem (s : State) (k : FaultKind) (info : FaultInfo) : (raise s k info).mem = s.mem := rfl
@[simp] theorem raise_prog (s : State) (k : FaultKind) (info : FaultInfo) :
    (raise s k info).prog = s.prog := rfl
@[simp] theorem raise_run (s : State) (k : FaultKind) (info : FaultInfo) :
    (raise s k info).run = .faulted := rfl
@[simp] theorem raise_fault (s : State) (k : FaultKind) (info : FaultInfo) :
    (raise s k info).fault = ⟨k, s.pc, info⟩ := rfl

@[simp] theorem halt_regs (s : State) : (halt s).regs = s.regs := rfl
@[simp] theorem halt_pc (s : State) : (halt s).pc = s.pc := rfl
@[simp] theorem halt_flag (s : State) : (halt s).flag = s.flag := rfl
@[simp] theorem halt_sym (s : State) : (halt s).sym = s.sym := rfl
@[simp] theorem halt_mem (s : State) : (halt s).mem = s.mem := rfl
@[simp] theorem halt_prog (s : State) : (halt s).prog = s.prog := rfl
@[simp] theorem halt_run (s : State) : (halt s).run = .halted := rfl
@[simp] theorem halt_fault (s : State) : (halt s).fault = s.fault := rfl

@[simp] theorem writeResult_regs (s : State) (d : Reg) (r : Word) :
    (writeResult s d r).regs = s.regs.set d r := rfl
@[simp] theorem writeResult_pc (s : State) (d : Reg) (r : Word) : (writeResult s d r).pc = s.pc + 1 := rfl
@[simp] theorem writeResult_flag (s : State) (d : Reg) (r : Word) : (writeResult s d r).flag = r := rfl
@[simp] theorem writeResult_sym (s : State) (d : Reg) (r : Word) : (writeResult s d r).sym = s.sym := rfl
@[simp] theorem writeResult_mem (s : State) (d : Reg) (r : Word) : (writeResult s d r).mem = s.mem := rfl
@[simp] theorem writeResult_prog (s : State) (d : Reg) (r : Word) : (writeResult s d r).prog = s.prog := rfl
@[simp] theorem writeResult_run (s : State) (d : Reg) (r : Word) : (writeResult s d r).run = s.run := rfl
@[simp] theorem writeResult_fault (s : State) (d : Reg) (r : Word) :
    (writeResult s d r).fault = s.fault := rfl

end Sys2Proof.Machine
end

