-- ==== Sys2Proof/Laws/Views.lean ====
section
/-! SUPPORT. The laws of the signed view, the wrap and the condition signals: what later proofs use instead
of unfolding them. -/

namespace Sys2Proof.Machine

theorem u16_lt (v : Word) : u16 v < 65536 := v.isLt

theorem s16_range (v : Word) : -32768 ≤ s16 v ∧ s16 v ≤ 32767 := by
  have := u16_lt v
  unfold s16
  split <;> omega

/-- The two views agree modulo 65536. -/
theorem s16_emod (v : Word) : s16 v % 65536 = (u16 v : Int) := by
  have := u16_lt v
  unfold s16
  split <;> omega

theorem u16_wrap16 (n : Int) : (u16 (wrap16 n) : Int) = n % 65536 := by
  simp only [u16, wrap16, BitVec.toNat_ofNat]
  omega

/-- A pattern is determined by its unsigned view. -/
theorem u16_inj {v w : Word} (h : u16 v = u16 w) : v = w := BitVec.eq_of_toNat_eq h

theorem wrap16_s16 (v : Word) : wrap16 (s16 v) = v := by
  apply u16_inj
  have h := u16_wrap16 (s16 v)
  rw [s16_emod] at h
  exact_mod_cast h

/-- A pattern is determined by its signed view. -/
theorem s16_inj {v w : Word} (h : s16 v = s16 w) : v = w := by
  rw [← wrap16_s16 v, h, wrap16_s16]

/-- Wrapping a number that fits keeps its signed value. -/
theorem s16_wrap16 {n : Int} (h1 : -32768 ≤ n) (h2 : n ≤ 32767) : s16 (wrap16 n) = n := by
  have := u16_wrap16 n
  unfold s16
  split <;> omega

theorem s16_zero_iff (v : Word) : s16 v = 0 ↔ v = 0 :=
  ⟨fun h => s16_inj (h.trans (by decide)), fun h => by subst h; decide⟩

/-- Addition of signed views wraps to addition of patterns. -/
theorem addWords_eq (a b : Word) : addWords a b = a + b := by
  apply u16_inj
  have h := u16_wrap16 (s16 a + s16 b)
  have ha := s16_emod a
  have hb := s16_emod b
  simp only [addWords, u16, BitVec.toNat_add] at *
  omega

theorem flagN_iff (f : Word) : flagN f = true ↔ s16 f < 0 := decide_eq_true_iff

theorem flagZ_iff (f : Word) : flagZ f = true ↔ s16 f = 0 := decide_eq_true_iff

theorem flagP_iff (f : Word) : flagP f = true ↔ 0 < s16 f := decide_eq_true_iff

/-- `take` in words: always for the empty set, else when a named primitive holds (R90). -/
theorem take_iff (c : Cond) (f : Word) :
    take c f = true ↔ (c = ⟨false, false, false⟩ ∨ (c.n = true ∧ s16 f < 0) ∨
      (c.z = true ∧ s16 f = 0) ∨ (c.p = true ∧ 0 < s16 f)) := by
  obtain ⟨n, z, p⟩ := c
  cases n <;> cases z <;> cases p <;> simp [take, flagN_iff, flagZ_iff, flagP_iff, or_assoc]

end Sys2Proof.Machine
end

