-- ==== Sys2Proof/Laws/Ops.lean ====
section
/-! SUPPORT. One lemma per shared operation that says everything it can do; proofs cite it instead of
unfolding the operation. -/

namespace Sys2Proof.Machine

theorem readReg_writeReg (s : State) (i j : Reg) (v : Word) :
    readReg (writeReg s i v) j = if j = i then v else readReg s j := by
  simp only [readReg, writeReg_regs, Fin.getElem_fin]
  rw [Vector.getElem_set]
  simp only [Fin.ext_iff, eq_comm]

theorem readReg_of_regs {s t : State} (h : t.regs = s.regs) (r : Reg) : readReg t r = readReg s r := by
  simp only [readReg, h]

theorem readReg_writeResult (s : State) (d r : Reg) (v : Word) :
    readReg (writeResult s d v) r = if r = d then v else readReg s r := by
  rw [← readReg_writeReg]
  exact readReg_of_regs rfl r

theorem memRead_memWrite (s : State) (a b : Nat) (v : Word) :
    memRead (memWrite s a v) b = if b = a then v else memRead s b :=
  memory_read_write s.mem a b v

theorem memRead_of_mem {s t : State} (h : t.mem = s.mem) (a : Nat) : memRead t a = memRead s a := by
  simp only [memRead, h]

theorem symResolve_symBind (s : State) (l : Nat) (k : Label) (v : Word) :
    symResolve (symBind s l v) k = if k.val = l then some v else symResolve s k :=
  lookup_insert s.sym l k.val v

theorem symResolve_of_sym {s t : State} (h : t.sym = s.sym) (l : Label) :
    symResolve t l = symResolve s l := by
  simp only [symResolve, h]

theorem isBound_iff (s : State) (l : Label) : isBound s l = true ↔ ∃ v, symResolve s l = some v :=
  Option.isSome_iff_exists

theorem symWrite_bound {s : State} {l : Label} {a : Word} (v : Word) (h : symResolve s l = some a) :
    symWrite s l v = some (symBind s l.val v) := by
  simp [symWrite, isBound, h]

theorem symWrite_unbound {s : State} {l : Label} (v : Word) (h : symResolve s l = none) :
    symWrite s l v = none := by
  simp [symWrite, isBound, h]

/-- `EffAddr` in words: the address is the signed value, and it is below 32768 (R36). -/
theorem effAddr_eq_some {v : Word} {n : Nat} :
    effAddr v = some n ↔ s16 v = (n : Int) ∧ n < 32768 := by
  have := s16_range v
  unfold effAddr
  split
  · rw [Option.some.injEq]; omega
  · simp only [reduceCtorEq, false_iff]; omega

theorem effAddr_eq_none {v : Word} : effAddr v = none ↔ s16 v < 0 := by
  unfold effAddr
  split
  · simp only [reduceCtorEq, false_iff]; omega
  · simp only [true_iff]; omega

/-- `ProgFetch` in words (R38). -/
theorem progFetch_eq_some {s : State} {i : Int} {w : Word} :
    progFetch s i = some w ↔ 0 ≤ i ∧ s.prog[i.toNat]? = some w := by
  unfold progFetch
  split <;> simp_all

theorem progFetch_eq_none {s : State} {i : Int} :
    progFetch s i = none ↔ i < 0 ∨ (progLen s : Int) ≤ i := by
  unfold progFetch progLen
  split
  · rw [List.getElem?_eq_none_iff]; omega
  · simp only [true_iff]; omega

theorem progFetch_of_prog {s t : State} (h : t.prog = s.prog) (i : Int) :
    progFetch t i = progFetch s i := by
  simp only [progFetch, h]

theorem withLabel_bound {s : State} {l : Label} {a : Word} (h : symResolve s l = some a)
    (k : Word → Host.Outcome State Fault Refusal) : withLabel s l k = k a := by
  simp only [withLabel, h]

theorem withLabel_unbound {s : State} {l : Label} (h : symResolve s l = none)
    (k : Word → Host.Outcome State Fault Refusal) :
    withLabel s l k = .next (raise s .unboundLabel (.label l)) := by
  simp only [withLabel, h]

theorem withAddress_some {s : State} {a : Word} {n : Nat} (h : effAddr a = some n)
    (k : Nat → Host.Outcome State Fault Refusal) : withAddress s a k = k n := by
  simp only [withAddress, h]

theorem withAddress_none {s : State} {a : Word} (h : effAddr a = none)
    (k : Nat → Host.Outcome State Fault Refusal) :
    withAddress s a k = .next (raise s .badAddress (.value a)) := by
  simp only [withAddress, h]

/-- Everything `withLabel` can do. -/
theorem withLabel_cases (s : State) (l : Label) (k : Word → Host.Outcome State Fault Refusal) :
    (∃ a, symResolve s l = some a ∧ withLabel s l k = k a) ∨
      (symResolve s l = none ∧ withLabel s l k = .next (raise s .unboundLabel (.label l))) := by
  cases h : symResolve s l with
  | some a => exact .inl ⟨a, rfl, withLabel_bound h k⟩
  | none => exact .inr ⟨rfl, withLabel_unbound h k⟩

/-- Everything `withAddress` can do. -/
theorem withAddress_cases (s : State) (a : Word) (k : Nat → Host.Outcome State Fault Refusal) :
    (∃ n, effAddr a = some n ∧ withAddress s a k = k n) ∨
      (effAddr a = none ∧ withAddress s a k = .next (raise s .badAddress (.value a))) := by
  cases h : effAddr a with
  | some n => exact .inl ⟨n, rfl, withAddress_some h k⟩
  | none => exact .inr ⟨rfl, withAddress_none h k⟩

/-- The engine takes a step exactly while it is running. -/
theorem whyStopped_eq_none {s : State} : whyStopped s = none ↔ s.run = .running := by
  unfold whyStopped
  cases s.run <;> simp

/-- Everything fetching and decoding can do (R125 items 1 and 2). -/
theorem fetchInstr_cases (s : State) :
    (∃ w i, progFetch s s.pc = some w ∧ decode w = .ok i ∧ fetchInstr s = .ok i) ∨
      (progFetch s s.pc = none ∧ fetchInstr s = .error (raise s .outOfRange (.index s.pc))) ∨
      (∃ w r, progFetch s s.pc = some w ∧ decode w = .error r ∧
        fetchInstr s = .error (raise s .configurationError (.word w))) := by
  cases hw : progFetch s s.pc with
  | none => exact .inr (.inl ⟨rfl, by simp only [fetchInstr, hw]⟩)
  | some w =>
    cases hd : decode w with
    | ok i => exact .inl ⟨w, i, rfl, hd, by simp only [fetchInstr, hw, hd]⟩
    | error r => exact .inr (.inr ⟨w, r, rfl, hd, by simp only [fetchInstr, hw, hd]⟩)

theorem step_running {s : State} (h : s.run = .running) :
    step s = match fetchInstr s with
      | .ok i => exec i s
      | .error t => .next t := by
  cases hf : fetchInstr s <;> simp only [step, whyStopped_eq_none.mpr h, hf]

theorem step_of_whyStopped {s : State} {f : Fault} (h : whyStopped s = some f) :
    step s = .fault f := by
  simp only [step, h]

end Sys2Proof.Machine
end

