-- ==== Sys2Proof/Laws/Exec.lean ====
section
/-! SUPPORT. Everything an executed instruction and a step can do, said once: later proofs about all
instructions take these cases instead of unfolding `exec`. -/

namespace Sys2Proof.Machine

/-- What executing `i` in `s` can leave, with the condition under which it does: the one write of R125 item 6
with its next index, a jump, the halt, or a fault entry. -/
inductive Effect (i : Instr) (s : State) : State → Prop where
  /-- ADD, AND, NOT, LD, LDI: destination, flag and next index. -/
  | result (d : Reg) (v : Word) (hi : i.dest = some d) : Effect i s (writeResult s d v)
  /-- A taken branch: the signed value of a bound label. -/
  | jump (l : Label) (a : Word) (hi : i ∈ branchesOn l) (h : symResolve s l = some a) :
      Effect i s (setPc s (s16 a))
  /-- A branch that is not taken. -/
  | fallThrough (l : Label) (a : Word) (hi : i ∈ branchesOn l) (h : symResolve s l = some a) :
      Effect i s (advance s)
  /-- ST to a bound label. -/
  | symStore (r : Reg) (l : Label) (a : Word) (hi : i = .st r l) (h : symResolve s l = some a) :
      Effect i s (advance (symBind s l.val (readReg s r)))
  /-- STI to the address in a bound label. -/
  | memStore (r : Reg) (l : Label) (a : Word) (n : Nat) (hi : i = .sti r l)
      (h : symResolve s l = some a) (hn : effAddr a = some n) :
      Effect i s (advance (memWrite s n (readReg s r)))
  /-- TRAP x25. -/
  | halted (hi : i = .trap Config.haltVector) : Effect i s (halt s)
  /-- The label of the instruction is not bound. -/
  | unbound (l : Label) (hi : i.labelOperand = some l) (h : symResolve s l = none) :
      Effect i s (raise s .unboundLabel (.label l))
  /-- The label of an LDI or STI holds a negative value. -/
  | badAddress (l : Label) (a : Word) (hu : i.usesAddress = true) (hi : i.labelOperand = some l)
      (h : symResolve s l = some a) (ha : s16 a < 0) : Effect i s (raise s .badAddress (.value a))
  /-- The instruction value is not legal. -/
  | illFormed (h : i.wellFormed = false) :
      Effect i s (raise s .configurationError (.argument i.offender))

theorem branch_bound {c : Cond} {l : Label} {s : State} {a : Word} (h : symResolve s l = some a) :
    branch c l s = .next (if take c s.flag then setPc s (s16 a) else advance s) :=
  withLabel_bound h _

theorem branch_unbound {c : Cond} {l : Label} {s : State} (h : symResolve s l = none) :
    branch c l s = .next (raise s .unboundLabel (.label l)) :=
  withLabel_unbound h _

theorem branch_effect {i : Instr} {l : Label} (hi : i ∈ branchesOn l) (hl : i.labelOperand = some l)
    (c : Cond) (s : State) : ∃ t, branch c l s = .next t ∧ Effect i s t := by
  cases h : symResolve s l with
  | some a =>
    refine ⟨_, branch_bound h, ?_⟩
    split
    · exact .jump l a hi h
    · exact .fallThrough l a hi h
  | none => exact ⟨_, branch_unbound h, .unbound l hl h⟩

/-- Everything a label-indirect operand can do. -/
theorem labelIndirect_cases (s : State) (l : Label) (k : Nat → Host.Outcome State Fault Refusal) :
    (∃ a n, symResolve s l = some a ∧ effAddr a = some n ∧ labelIndirect s l k = k n) ∨
      (∃ a, symResolve s l = some a ∧ s16 a < 0 ∧
        labelIndirect s l k = .next (raise s .badAddress (.value a))) ∨
      (symResolve s l = none ∧ labelIndirect s l k = .next (raise s .unboundLabel (.label l))) := by
  rcases withLabel_cases s l (fun a => withAddress s a k) with ⟨a, ha, h⟩ | ⟨hn, h⟩
  · rcases withAddress_cases s a k with ⟨n, hn, h'⟩ | ⟨hn, h'⟩
    · exact .inl ⟨a, n, ha, hn, h.trans h'⟩
    · exact .inr (.inl ⟨a, ha, effAddr_eq_none.mp hn, h.trans h'⟩)
  · exact .inr (.inr ⟨hn, h⟩)

/-- Everything ST can do. -/
theorem execSt_cases (r : Reg) (l : Label) (s : State) :
    (∃ a, symResolve s l = some a ∧
      execSt r l s = .next (advance (symBind s l.val (readReg s r)))) ∨
      (symResolve s l = none ∧ execSt r l s = .next (raise s .unboundLabel (.label l))) := by
  cases h : symResolve s l with
  | some a => exact .inl ⟨a, rfl, by simp only [execSt, symWrite_bound _ h]; rfl⟩
  | none => exact .inr ⟨rfl, by simp only [execSt, symWrite_unbound _ h]⟩

/-- Every instruction, in every state, answers a next state, and `Effect` says which. -/
theorem exec_effect (i : Instr) (s : State) : ∃ t, exec i s = .next t ∧ Effect i s t := by
  cases i with
  | addReg d a b => exact ⟨_, rfl, .result d _ rfl⟩
  | andReg d a b => exact ⟨_, rfl, .result d _ rfl⟩
  | notReg d a => exact ⟨_, rfl, .result d _ rfl⟩
  | addImm d a imm =>
    by_cases h : immLegal imm
    · exact ⟨_, if_pos h, .result d _ rfl⟩
    · exact ⟨_, if_neg h, .illFormed (decide_eq_false h)⟩
  | andImm d a imm =>
    by_cases h : immLegal imm
    · exact ⟨_, if_pos h, .result d _ rfl⟩
    · exact ⟨_, if_neg h, .illFormed (decide_eq_false h)⟩
  | trap v =>
    by_cases h : vectorLegal v
    · exact ⟨_, if_pos h, .halted (congrArg _ h)⟩
    · exact ⟨_, if_neg h, .illFormed (decide_eq_false h)⟩
  | br l | brn l | brz l | brp l | brnz l | brzp l | brnp l | brnzp l =>
    exact branch_effect (by simp [branchesOn]) rfl _ s
  | ld d l =>
    rcases withLabel_cases s l (fun v => .next (writeResult s d v)) with ⟨a, _, h⟩ | ⟨hn, h⟩
    · exact ⟨_, h, .result d a rfl⟩
    · exact ⟨_, h, .unbound l rfl hn⟩
  | ldi d l =>
    rcases labelIndirect_cases s l (fun n => .next (writeResult s d (memRead s n))) with
      ⟨a, n, _, _, h⟩ | ⟨a, ha, h0, h⟩ | ⟨hn, h⟩
    · exact ⟨_, h, .result d _ rfl⟩
    · exact ⟨_, h, .badAddress l a rfl rfl ha h0⟩
    · exact ⟨_, h, .unbound l rfl hn⟩
  | sti r l =>
    rcases labelIndirect_cases s l (fun n => .next (advance (memWrite s n (readReg s r)))) with
      ⟨a, n, ha, hn, h⟩ | ⟨a, ha, h0, h⟩ | ⟨hn, h⟩
    · exact ⟨_, h, .memStore r l a n rfl ha hn⟩
    · exact ⟨_, h, .badAddress l a rfl rfl ha h0⟩
    · exact ⟨_, h, .unbound l rfl hn⟩
  | st r l =>
    rcases execSt_cases r l s with ⟨a, ha, h⟩ | ⟨hn, h⟩
    · exact ⟨_, h, .symStore r l a rfl ha⟩
    · exact ⟨_, h, .unbound l rfl hn⟩

/-- What an instruction that answers `t` did. -/
theorem effect_of_exec {i : Instr} {s t : State} (h : exec i s = .next t) : Effect i s t := by
  obtain ⟨t', ht', he⟩ := exec_effect i s
  have := ht'.symm.trans h
  cases this
  exact he

/-- A step of the running engine in words: it executes the decoded instruction, or raises the fetch or the
decode fault. -/
theorem step_running_cases {s : State} (h : s.run = .running) :
    (∃ w i, progFetch s s.pc = some w ∧ decode w = .ok i ∧ step s = exec i s) ∨
      (progFetch s s.pc = none ∧ step s = .next (raise s .outOfRange (.index s.pc))) ∨
      (∃ w r, progFetch s s.pc = some w ∧ decode w = .error r ∧
        step s = .next (raise s .configurationError (.word w))) := by
  rw [step_running h]
  rcases fetchInstr_cases s with ⟨w, i, hw, hd, hf⟩ | ⟨hw, hf⟩ | ⟨w, r, hw, hd, hf⟩
  · exact .inl ⟨w, i, hw, hd, by rw [hf]⟩
  · exact .inr (.inl ⟨hw, by rw [hf]⟩)
  · exact .inr (.inr ⟨w, r, hw, hd, by rw [hf]⟩)

/-- A step that answers a next state started in Running. -/
theorem running_of_step_next {s t : State} (h : step s = .next t) : s.run = .running := by
  by_contra hn
  cases hw : whyStopped s with
  | none => exact hn (whyStopped_eq_none.mp hw)
  | some f => rw [step_of_whyStopped hw] at h; cases h

/-- What a step that answers a next state did: executed an instruction at an index inside the store, or
raised the fetch or the decode fault. -/
theorem step_next_cases {s t : State} (h : step s = .next t) :
    s.run = .running ∧
      ((∃ w i, progFetch s s.pc = some w ∧ decode w = .ok i ∧ Effect i s t) ∨
        (progFetch s s.pc = none ∧ t = raise s .outOfRange (.index s.pc)) ∨
        ∃ w r, progFetch s s.pc = some w ∧ decode w = .error r ∧
          t = raise s .configurationError (.word w)) := by
  have hr := running_of_step_next h
  refine ⟨hr, ?_⟩
  rcases step_running_cases hr with ⟨w, i, hw, hd, hs⟩ | ⟨hn, hs⟩ | ⟨w, r, hw, hd, hs⟩
  · exact .inl ⟨w, i, hw, hd, effect_of_exec (hs ▸ h)⟩
  · rw [hs] at h
    cases h
    exact .inr (.inl ⟨hn, rfl⟩)
  · rw [hs] at h
    cases h
    exact .inr (.inr ⟨w, r, hw, hd, rfl⟩)

end Sys2Proof.Machine
end

