-- ==== Sys2Proof/Laws/PerInstr.lean ====
section
/-! SUPPORT. A statement per instruction: the word of a well-formed instruction carries the bits its row of
the opcode table fixes (spec/30_encoding.md R58). -/

namespace Sys2Proof.Laws.RowBits

/-- The word of the instruction, if it is well-formed, matches the instruction's row. -/
def Statement (i : Instr) : Prop := i.wellFormed = true → i.row.accepts (encode i) = true

/-- A legal immediate is one of the 32 residues, each with its own 5-bit field. -/
theorem imm_cases {imm : Int} (h : immLegal imm) :
    ∃ k : Fin 32, imm = (k.val : Int) - 16 := by
  simp only [immLegal, Config.immMin, Config.immMax] at h
  exact ⟨⟨(imm + 16).toNat, by omega⟩, by simp only; omega⟩

theorem addReg (d a b : Reg) : Statement (.addReg d a b) := by
  intro _
  revert d a b
  decide +kernel

theorem addImm (d a : Reg) (imm : Int) : Statement (.addImm d a imm) := by
  intro h
  obtain ⟨k, rfl⟩ := imm_cases (of_decide_eq_true h)
  revert d a k
  decide +kernel

theorem andReg (d a b : Reg) : Statement (.andReg d a b) := by
  intro _
  revert d a b
  decide +kernel

theorem andImm (d a : Reg) (imm : Int) : Statement (.andImm d a imm) := by
  intro h
  obtain ⟨k, rfl⟩ := imm_cases (of_decide_eq_true h)
  revert d a k
  decide +kernel

theorem notReg (d a : Reg) : Statement (.notReg d a) := by
  intro _
  revert d a
  decide +kernel

theorem br (l : Label) : Statement (.br l) := by
  intro _
  revert l
  decide +kernel

theorem brn (l : Label) : Statement (.brn l) := by
  intro _
  revert l
  decide +kernel

theorem brz (l : Label) : Statement (.brz l) := by
  intro _
  revert l
  decide +kernel

theorem brp (l : Label) : Statement (.brp l) := by
  intro _
  revert l
  decide +kernel

theorem brnz (l : Label) : Statement (.brnz l) := by
  intro _
  revert l
  decide +kernel

theorem brzp (l : Label) : Statement (.brzp l) := by
  intro _
  revert l
  decide +kernel

theorem brnp (l : Label) : Statement (.brnp l) := by
  intro _
  revert l
  decide +kernel

theorem brnzp (l : Label) : Statement (.brnzp l) := by
  intro _
  revert l
  decide +kernel

theorem ld (d : Reg) (l : Label) : Statement (.ld d l) := by
  intro _
  revert d l
  decide +kernel

theorem ldi (d : Reg) (l : Label) : Statement (.ldi d l) := by
  intro _
  revert d l
  decide +kernel

theorem st (r : Reg) (l : Label) : Statement (.st r l) := by
  intro _
  revert r l
  decide +kernel

theorem sti (r : Reg) (l : Label) : Statement (.sti r l) := by
  intro _
  revert r l
  decide +kernel

theorem trap (v : Nat) : Statement (.trap v) := by
  intro h
  rw [vector_of_wellFormed h]
  decide

end Sys2Proof.Laws.RowBits
end

