-- ==== Sys2Proof/Tests/Slice0.lean ====
section
/-! SUPPORT. Tests of the model against the spec's own examples and vectors (each cites its source), the
smoke test of WellFormed, and for every statement with hypotheses a concrete state and operands that meet
them. -/

namespace Sys2Proof.Tests

open Sys2Proof.Machine

/-- The next state, if the outcome is one. -/
def nextOf (o : Host.Outcome State Fault Refusal) : Option State :=
  match o with
  | .next s => some s
  | .fault _ => none
  | .refused _ => none

/-- A running engine at index `pc` with the given flag: label 1 bound to 7, label 3 to -256, label 5 to
0x3100, label 511 to 32767; the cell 0x3100 holds 0x424F; a store of three words. -/
def running (pc : Int) (flag : Word) : State :=
  { State.reset with
    pc := pc, flag := flag, run := .running, prog := [0x1042, 0x0201, 0xF025],
    sym := [(1, 7), (3, 0xFF00), (5, 0x3100), (511, 0x7FFF)], mem := [(0x3100, 0x424F)] }

/-- `running` at index 0 with registers 1 and 2 set. -/
def withRegs (a b : Word) : State := writeReg (writeReg (running 0 7) 1 a) 2 b

/-- The register, the flag and `pc` after an instruction. -/
def resultOf (i : Instr) (s : State) (d : Reg) : Option (Word × Word × Int) :=
  (nextOf (exec i s)).map (fun t => (readReg t d, t.flag, t.pc))

/-- `pc` and RUN after an instruction. -/
def whereTo (i : Instr) (s : State) : Option (Int × RunState) :=
  (nextOf (exec i s)).map (fun t => (t.pc, t.run))

/-- RUN, the fault record and `pc` after an instruction. -/
def faultOf (i : Instr) (s : State) : Option (RunState × FaultRecord × Int) :=
  (nextOf (exec i s)).map (fun t => (t.run, t.fault, t.pc))

/-! ## WellFormed: every check refuses an ill-formed term (R64) -/

theorem test_wf_refuses_add_immediate : (Instr.addImm 0 0 16).wellFormed = false ∧
    (Instr.addImm 0 0 (-17)).wellFormed = false := by decide

theorem test_wf_refuses_and_immediate : (Instr.andImm 0 0 16).wellFormed = false ∧
    (Instr.andImm 0 0 (-17)).wellFormed = false := by decide

theorem test_wf_refuses_trap_vector : (Instr.trap 25).wellFormed = false ∧
    (Instr.trap 0x24).wellFormed = false := by decide

theorem test_wf_accepts_the_limits : (Instr.addImm 0 0 15).wellFormed = true ∧
    (Instr.andImm 7 7 (-16)).wellFormed = true ∧ (Instr.trap 0x25).wellFormed = true := by decide

/-! ## Decoding: words written out from R52 and R58, one for each constructor -/

/-- 0001 000 000 0 00 111 (V-D2). -/
theorem test_decode_addReg : decode 0b0001000000000111 = .ok (.addReg 0 0 7) := by decide

/-- 0001 000 000 1 10000 (V-D4). -/
theorem test_decode_addImm : decode 0b0001000000110000 = .ok (.addImm 0 0 (-16)) := by decide

/-- 0101 000 001 0 00 010 (V-N1). -/
theorem test_decode_andReg : decode 0b0101000001000010 = .ok (.andReg 0 1 2) := by decide

/-- 0101 000 000 1 11000 (V-D7). -/
theorem test_decode_andImm : decode 0b0101000000111000 = .ok (.andImm 0 0 (-8)) := by decide

/-- 1001 011 111 111111 (V-D8). -/
theorem test_decode_not : decode 0b1001011111111111 = .ok (.notReg 3 7) := by decide

/-- 0000 000 000000000 (V-D1): a jump to label 0, not a no-operation. -/
theorem test_decode_br : decode 0x0000 = .ok (.br 0) := by decide

/-- 0000 100 000000011 (R93). -/
theorem test_decode_brn : decode 0b0000100000000011 = .ok (.brn 3) := by decide

/-- 0000 010 000000010 (R94). -/
theorem test_decode_brz : decode 0b0000010000000010 = .ok (.brz 2) := by decide

/-- 0000 001 000000000 (R95). -/
theorem test_decode_brp : decode 0b0000001000000000 = .ok (.brp 0) := by decide

/-- 0000 110 000000100 (R96). -/
theorem test_decode_brnz : decode 0b0000110000000100 = .ok (.brnz 4) := by decide

/-- 0000 011 000000001 (R97). -/
theorem test_decode_brzp : decode 0b0000011000000001 = .ok (.brzp 1) := by decide

/-- 0000 101 000000100 (R98). -/
theorem test_decode_brnp : decode 0b0000101000000100 = .ok (.brnp 4) := by decide

/-- 0000 111 000000101 (V-D10). -/
theorem test_decode_brnzp : decode 0b0000111000000101 = .ok (.brnzp 5) := by decide

/-- 0010 101 000000000 (V-D11). -/
theorem test_decode_ld : decode 0b0010101000000000 = .ok (.ld 5 0) := by decide

/-- 1010 000 111111111 (V-D12), the largest label identifier. -/
theorem test_decode_ldi : decode 0b1010000111111111 = .ok (.ldi 0 511) := by decide

/-- 0011 111 000000000 (V-D13). -/
theorem test_decode_st : decode 0b0011111000000000 = .ok (.st 7 0) := by decide

/-- 1011 001 000000001 (V-D14). -/
theorem test_decode_sti : decode 0b1011001000000001 = .ok (.sti 1 1) := by decide

/-- 1111 0000 00100101 (V-D15). -/
theorem test_decode_trap : decode 0b1111000000100101 = .ok (.trap 0x25) := by decide

/-- V-D6, V-D9, V-D16, V-D17. -/
theorem test_decode_rejects : decode 0x1008 = .error .registerFormBits ∧
    decode 0x903E = .error .notBits ∧ decode 0xF125 = .error .trapHighBits ∧
    decode 0xF021 = .error .trapVector ∧ decode 0xC1C0 = .error .unusedOpcode := by decide

/-- The table's numbering is the word's own: the row TRAP_x25 as `decodeTableWord` sees it. -/
theorem test_decodeTableWord : decodeTableWord 16 0xF025 = some (.trap 0x25) ∧
    decodeTableWord 16 0xF019 = none := by decide

/-! ## Instructions: vectors of spec/95_test_vectors.md -/

/-- V-A2: 0x7FFF + 1 wraps to 0x8000. -/
theorem test_add_wraps :
    resultOf (.addReg 0 1 2) (withRegs 0x7FFF 1) 0 = some (0x8000, 0x8000, 1) := by decide

/-- V-A9: source and destination the same register. -/
theorem test_add_doubles :
    resultOf (.addReg 1 1 1) (withRegs 0x4001 0) 1 = some (0x8002, 0x8002, 1) := by decide

/-- V-AI2: 0x8000 + -16 wraps to 0x7FF0. -/
theorem test_addImm_wraps :
    resultOf (.addImm 0 1 (-16)) (withRegs 0x8000 0) 0 = some (0x7FF0, 0x7FF0, 1) := by decide

/-- V-N6. -/
theorem test_and :
    resultOf (.andReg 0 1 2) (withRegs 0x8001 0xFFFF) 0 = some (0x8001, 0x8001, 1) := by decide

/-- V-NI3: the immediate is sign-extended. -/
theorem test_andImm_extends :
    resultOf (.andImm 0 1 (-16)) (withRegs 0x12FF 0) 0 = some (0x12F0, 0x12F0, 1) := by decide

/-- V-T5. -/
theorem test_not : resultOf (.notReg 0 1) (withRegs 4 0) 0 = some (0xFFFB, 0xFFFB, 1) := by decide

/-- V-B0. -/
theorem test_br : whereTo (.br 1) (running 2 0) = some (7, .running) := by decide

/-- V-B1, at the extreme flags. -/
theorem test_brn : whereTo (.brn 1) (running 2 0x8000) = some (7, .running) ∧
    whereTo (.brn 1) (running 2 0) = some (3, .running) := by decide

/-- V-B2. -/
theorem test_brz : whereTo (.brz 1) (running 2 0) = some (7, .running) ∧
    whereTo (.brz 1) (running 2 0xFFFD) = some (3, .running) := by decide

/-- V-B3, at the extreme flags. -/
theorem test_brp : whereTo (.brp 1) (running 2 0x7FFF) = some (7, .running) ∧
    whereTo (.brp 1) (running 2 0x8000) = some (3, .running) := by decide

/-- V-B4. -/
theorem test_brnz : whereTo (.brnz 1) (running 2 0xFFFD) = some (7, .running) ∧
    whereTo (.brnz 1) (running 2 3) = some (3, .running) := by decide

/-- V-B5. -/
theorem test_brzp : whereTo (.brzp 1) (running 2 3) = some (7, .running) ∧
    whereTo (.brzp 1) (running 2 0xFFFD) = some (3, .running) := by decide

/-- V-B6. -/
theorem test_brnp : whereTo (.brnp 1) (running 2 0xFFFD) = some (7, .running) ∧
    whereTo (.brnp 1) (running 2 0) = some (3, .running) := by decide

/-- V-B7. -/
theorem test_brnzp : whereTo (.brnzp 1) (running 2 0) = some (7, .running) := by decide

/-- V-B8: a branch that would not be taken, to an unbound label. -/
theorem test_branch_not_taken_unbound :
    faultOf (.brp 6) (running 2 0) = some (.faulted, ⟨.unboundLabel, 2, .label 6⟩, 2) := by decide

/-- V-B9: a negative target is loaded unchecked. -/
theorem test_branch_negative_target : whereTo (.br 3) (running 2 0) = some (-256, .running) := by decide

/-- V-LS2. -/
theorem test_ld : resultOf (.ld 0 3) (running 0 7) 0 = some (0xFF00, 0xFF00, 1) := by decide

/-- V-LS3. -/
theorem test_ldi : resultOf (.ldi 0 5) (running 0 7) 0 = some (0x424F, 0x424F, 1) := by decide

/-- V-LS9, for LDI: a negative address faults. -/
theorem test_ldi_negative :
    faultOf (.ldi 0 3) (running 0 7) = some (.faulted, ⟨.badAddress, 0, .value 0xFF00⟩, 0) := by decide

/-- V-LS6: the label is overwritten, the flag stays. -/
theorem test_st : (nextOf (exec (.st 1 1) (withRegs 6 0))).map
    (fun t => (symResolve t 1, t.flag, t.pc)) = some (some 6, 7, 1) := by decide

/-- V-LS8, for ST: an unbound label stays unbound. -/
theorem test_st_unbound : (nextOf (exec (.st 1 9) (withRegs 6 0))).map
    (fun t => (t.run, symResolve t 9)) = some (.faulted, none) := by decide

/-- V-LS10: the highest cell a program reaches; the flag stays. -/
theorem test_sti_top : (nextOf (exec (.sti 1 511) (withRegs 1 0))).map
    (fun t => (memRead t 32767, t.flag, t.pc)) = some (1, 7, 1) := by decide

/-- R35: storing 0 into the only listed cell leaves no entry, so the memory is that of reset. -/
theorem test_sti_zero : (nextOf (exec (.sti 1 5) (withRegs 0 0))).map (fun t => t.mem) = some [] := by
  decide

/-- V-S1. -/
theorem test_trap : faultOf (.trap 0x25) (running 2 7) = some (.halted, FaultRecord.clear, 2) := by decide

/-! ## The step, the codes and the host -/

/-- V-S3, second step: off the end of the store. -/
theorem test_step_off_the_end : (nextOf (step (running 3 1))).map (fun t => (t.run, t.fault)) =
    some (.faulted, ⟨.outOfRange, 3, .index 3⟩) := by decide

/-- R121, second line: an illegal word in the store. -/
theorem test_step_illegal_word :
    (nextOf (step (State.reset.withFetchWord 16 0xF021))).map (fun t => (t.run, t.fault)) =
      some (.faulted, ⟨.configurationError, 0, .word 0xF021⟩) := by decide

/-- V-S1 through `withFetchWord`: the first step after reset runs the word. -/
theorem test_step_first_word :
    (nextOf (step (State.reset.withFetchWord 16 0xF025))).map (fun t => (t.run, t.pc)) =
      some (.halted, 0) := by decide

/-- R17, R120: the codes. -/
theorem test_codes : RunState.running.code = 1 ∧ RunState.halted.code = 2 ∧ RunState.faulted.code = 3 ∧
    FaultKind.configurationError.code = 1 ∧ FaultKind.unboundLabel.code = 2 ∧
    FaultKind.outOfRange.code = 3 ∧ FaultKind.badAddress.code = 4 := by decide

/-- P5 loaded and started by the host. -/
def launched : State := hostRun [.appendWord 0x1021, .appendWord 0xF025, .beginExecution] State.reset

/-- V-S3, first step. -/
theorem test_launch_and_step : (nextOf (step launched)).map
    (fun t => (readReg t 0, t.flag, t.pc, t.run)) = some (1, 1, 1, .running) := by decide

/-- R151: an illegal word is refused and ends the load phase, with the index it would have taken. -/
theorem test_append_refused :
    (hostStep (.appendWord 0xF021) (hostRun [.appendWord 0x1021] State.reset)).2.fault =
      ⟨.configurationError, 1, .word 0xF021⟩ := by decide

/-- R152: a position label is the store length at its declaration, and rebinding overwrites. -/
theorem test_bind : symResolve (hostRun [.bindConstantLabel 4 9, .appendWord 0xF025,
    .bindPositionLabel 4] State.reset) 4 = some 1 := by decide

/-- R121: a label identifier out of range. -/
theorem test_bind_refused : (hostStep (.bindPositionLabel 512) State.reset).2.fault =
    ⟨.configurationError, 0, .argument 512⟩ := by decide

/-! ## Witnesses: every statement's hypotheses are met, each clause at a boundary -/

theorem witness_MemoryHoldsTheLastWrite : 65535 < 65536 ∧ 0 < 65536 ∧ State.reset.run = .loading := by
  decide

theorem witness_EffectiveAddress : 0 ≤ s16 0 ∧ 0 ≤ s16 0x7FFF ∧ s16 0x8000 < 0 ∧ s16 0xFFFF < 0 := by
  decide

theorem witness_SymbolTable : symResolve (running 0 0) 511 = some 0x7FFF ∧
    symResolve (running 0 0) 510 = none ∧ (Instr.st 0 510).labelOperand = some 510 ∧
    (1 : Label) ≠ 511 := by decide

theorem witness_FetchOutsideTheStore : 2 < progLen (running 3 0) ∧ (running 3 0).run = .running ∧
    (progLen (running 3 0) : Int) ≤ (running 3 0).pc ∧ (running (-1) 0).run = .running ∧
    (running (-1) 0).pc < 0 := by decide

/-- For DecodeAndEncodeAreInverse and DecoderAcceptsTheTableRows. -/
theorem witness_DecodeAndEncode : (Instr.addImm 7 7 (-16)).wellFormed = true ∧
    (Instr.andImm 7 7 15).wellFormed = true ∧ (Instr.trap 0x25).wellFormed = true ∧
    decode 0xB1FF = .ok (.sti 0 511) := by decide

/-- For AddImmediateForm, AndImmediateForm and AluMeetsTheSourceProperties. -/
theorem witness_ImmediateForms : (-16 : Int) ≤ -16 ∧ (-16 : Int) ≤ 15 ∧ (15 : Int) ≤ 15 ∧
    immLegal (-16) ∧ immLegal 15 := by decide

theorem witness_AluFrame : immLegal 15 ∧
    Instr.addImm 0 1 15 ∈ [Instr.addReg 0 1 2, .addImm 0 1 15, .andReg 0 1 2, .andImm 0 1 15, .notReg 0 1] ∧
    ∃ t, exec (.addImm 0 1 15) (withRegs 1 2) = .next t := ⟨by decide, by decide, _, rfl⟩

/-- For BranchFormsJumpByTheFlagSign and BranchConditionMatrix: a bound and an unbound label, each sign. -/
theorem witness_BranchForms : symResolve (running 2 0) 511 = some 0x7FFF ∧
    symResolve (running 2 0) 510 = none ∧
    s16 (running 2 0x8000).flag < 0 ∧ s16 (running 2 0).flag = 0 ∧ 0 < s16 (running 2 0x7FFF).flag := by
  decide

theorem witness_BranchFrame : Instr.brnp 1 ∈ branchesOn 1 ∧
    (∃ t, exec (.brnp 1) (running 2 0) = .next t) ∧ symResolve (running 2 0) 1 ≠ none ∧
    Instr.br 0 ∈ branchesOn 0 ∧ (∃ t, exec (.br 0) (running 2 0) = .next t) ∧
    symResolve (running 2 0) 0 = none :=
  ⟨by decide, ⟨_, rfl⟩, by decide, by decide, ⟨_, rfl⟩, by decide⟩

/-- For LoadTakesTheLabelValue, LoadIndirectTakesTheCell, StoreWritesTheLabelValue,
StoreIndirectWritesTheCell and StoreRedirectsTheLabel. -/
theorem witness_LabelInstructions : symResolve (running 0 0) 511 = some 0x7FFF ∧ 0 ≤ s16 0x7FFF ∧
    symResolve (running 0 0) 3 = some 0xFF00 ∧ s16 0xFF00 < 0 ∧
    symResolve (running 0 0) 0 = none := by decide

theorem witness_LoadFrame : Instr.ldi 0 5 ∈ [Instr.ld 0 5, .ldi 0 5] ∧
    (∃ t, exec (.ldi 0 5) (running 0 0) = .next t) ∧ (∃ t, exec (.ld 0 0) (running 0 0) = .next t) :=
  ⟨by decide, ⟨_, rfl⟩, ⟨_, rfl⟩⟩

theorem witness_StoreFrame : (∃ t, exec (.st 1 1) (running 0 0) = .next t) ∧
    symResolve (running 0 0) 1 ≠ none ∧ (∃ t, exec (.st 1 0) (running 0 0) = .next t) ∧
    symResolve (running 0 0) 0 = none := ⟨⟨_, rfl⟩, by decide, ⟨_, rfl⟩, by decide⟩

theorem witness_StoreIndirectFrame : (∃ t, exec (.sti 1 511) (running 0 0) = .next t) ∧
    symResolve (running 0 0) 511 = some 0x7FFF ∧ effAddr 0x7FFF = some 32767 ∧
    (∃ t, exec (.sti 1 3) (running 0 0) = .next t) ∧
    (symResolve (running 0 0) 3).bind effAddr = none :=
  ⟨⟨_, rfl⟩, by decide, by decide, ⟨_, rfl⟩, by decide⟩

/-- For TrapHalts and TrapFrame. -/
theorem witness_TrapHalts : (∃ t, exec (.trap 0x25) (running 2 0) = .next t) ∧
    (halt (running 2 0)).run = .halted := ⟨⟨_, rfl⟩, rfl⟩

theorem witness_IllFormed : decode 0x103F = .ok (.addImm 0 0 (-1)) ∧
    (Instr.addImm 0 0 16).wellFormed = false ∧ (Instr.andImm 0 0 (-17)).wellFormed = false ∧
    (Instr.trap 25).wellFormed = false := by decide

theorem witness_StoreIndirectThenLoad : symResolve (running 0 0) 511 = some 0x7FFF ∧ 0 ≤ s16 0x7FFF ∧
    (∀ a, symResolve (running 0 0) 3 = some a → s16 a < 0) := by
  refine ⟨by decide, by decide, fun a h => ?_⟩
  cases h
  decide

theorem witness_LabelsServe : State.reset.run = .loading ∧ progLen State.reset ≤ 32767 := by decide

theorem witness_StepRunsTheDecoded : (running 0 0).run = .running ∧
    progFetch (running 0 0) (running 0 0).pc = some 0x1042 ∧ decode 0x1042 = .ok (.addReg 0 1 2) := by
  decide

theorem witness_EngineSteps : (running 0 0).run = .running ∧ State.reset.run = .loading ∧
    (halt (running 0 0)).run = .halted ∧ (raise (running 0 0) .outOfRange (.index 0)).run = .faulted := by
  decide

/-- For StepFaultsArePreciseAndOrdered: an illegal word at `pc`, and each of the four faults. -/
theorem witness_StepFaults :
    ((State.reset.withFetchWord 16 0x4000).run = .running ∧
      progFetch (State.reset.withFetchWord 16 0x4000) 0 = some 0x4000 ∧
      (State.reset.withFetchWord 16 0x4000).pc = 0 ∧ decode 0x4000 = .error .unusedOpcode) ∧
    (∃ t, step (running 3 0) = .next t ∧ t.run = .faulted) ∧
    (∃ t, step (State.reset.withFetchWord 16 0x4000) = .next t ∧ t.run = .faulted) ∧
    (∃ t, step (State.reset.withFetchWord 16 0x0000) = .next t ∧ t.run = .faulted) ∧
    (∃ t, step ((running 0 0).withFetchWord 16 0xA003) = .next t ∧ t.run = .faulted) :=
  ⟨by decide, ⟨_, rfl, rfl⟩, ⟨_, rfl, rfl⟩, ⟨_, rfl, rfl⟩, ⟨_, rfl, rfl⟩⟩

theorem witness_OnlyTheTrapHalts : ∃ t, step (running 2 0) = .next t ∧ t.run = .halted :=
  ⟨_, rfl, rfl⟩

theorem witness_OnlyBranches : (∃ t, step (running 0 0) = .next t ∧ t.run = .running) ∧
    (∃ t, step (running 1 3) = .next t ∧ t.run = .running ∧ t.pc = 7) :=
  ⟨⟨_, rfl, rfl⟩, ⟨_, rfl, rfl, rfl⟩⟩

theorem witness_FlagIsTheLastResult :
    (∃ t, step (running 0 0) = .next t ∧ Fetches (running 0 0) (.addReg 0 1 2) ∧ t.run ≠ .faulted ∧
      (Instr.addReg 0 1 2).dest = some 0) ∧
    (∃ t, step (running 1 3) = .next t ∧ Fetches (running 1 3) (.brp 1) ∧
      (Instr.brp 1).dest = none) ∧
    (∃ t, step ((running 0 0).withFetchWord 16 0x2000) = .next t ∧
      Fetches ((running 0 0).withFetchWord 16 0x2000) (.ld 0 0) ∧ t.run = .faulted) :=
  ⟨⟨_, rfl, ⟨_, rfl, rfl⟩, by decide, rfl⟩, ⟨_, rfl, ⟨_, rfl, rfl⟩, rfl⟩,
    ⟨_, rfl, ⟨_, rfl, rfl⟩, rfl⟩⟩

theorem witness_RunsKeepProgram : ∃ t, Host.Core.run Sys2Proof.core 2 (running 0 0) = .next t :=
  ⟨_, rfl⟩

/-- What the host's three operations leave, written out. -/
theorem launched_eq : launched =
    { State.reset with prog := [0x1021, 0xF025], run := .running } := by decide +kernel

theorem launched_inv : launched.Inv := by
  rw [launched_eq]
  exact ⟨by decide, by decide, by decide,
    List.forall_mem_cons.2 ⟨by decide, List.forall_mem_cons.2 ⟨by decide, fun _ h => (by cases h)⟩⟩,
    by decide, by decide, fun _ => rfl, fun h => (by cases h), fun h => (by cases h)⟩

theorem witness_StepKeepsTheInvariant : launched.Inv ∧ ∃ t, step launched = .next t :=
  ⟨launched_inv, _, rfl⟩

theorem witness_HostOperationsKeepTheInvariant : launched.Inv ∧
    hostStep .beginExecution launched = (.refused, launched) := ⟨launched_inv, by decide⟩

theorem witness_ReachableStates : Reachable launched ∧ launched.run = .running ∧
    progFetch launched launched.pc = some 0x1021 ∧ ∃ t, step launched = .next t :=
  ⟨.host _ _ (.host _ _ (.host _ _ (.reset Config.flagReset))), by decide, by decide, _, rfl⟩

theorem witness_UpperMemory : AgreeBelow (running 0 0) (memWrite (running 0 0) 32768 1) ∧
    ∃ t, step (running 0 0) = .next t := by
  refine ⟨⟨rfl, rfl, rfl, rfl, rfl, rfl, rfl, fun a h => ?_⟩, _, rfl⟩
  have h0 : a ≠ 32768 := by omega
  simp only [memRead, memWrite, Memory.read, running]
  by_cases h1 : a = 0x3100 <;> simp [Memory.write, Cells.insert, Cells.lookup, h0, h1]

theorem witness_AppendInstruction : State.reset.run = .loading ∧ decode 0xF025 = .ok (.trap 0x25) ∧
    progLen State.reset < 32768 ∧ decode 0xF021 = .error .trapVector ∧
    (Instr.addImm 0 0 15).wellFormed = true ∧ (Instr.addImm 0 0 16).wellFormed = false ∧
    (running 0 0).run ≠ .loading ∧ (∀ f, HostOp.appendWord 0xF025 ≠ .reset f) ∧
    (∀ f, HostOp.beginExecution ≠ .reset f) ∧ (∀ w, HostOp.beginExecution ≠ .appendWord w) ∧
    ∀ i, HostOp.beginExecution ≠ .appendInstr i :=
  ⟨rfl, by decide, by decide, by decide, by decide, by decide, by decide, nofun, nofun, nofun, nofun⟩

theorem witness_AppendToAFullStore :
    32768 ≤ progLen { State.reset with prog := List.replicate 32768 0xF025 } :=
  List.length_replicate.ge

theorem witness_BindingSetsTheLabel : State.reset.run = .loading ∧ progLen State.reset ≤ 32767 ∧
    progLen { State.reset with prog := List.replicate 32768 0xF025 } = 32768 ∧
    (running 0 0).run ≠ .loading := ⟨rfl, by decide, List.length_replicate, by decide⟩

theorem witness_SeedingAndStarting : 65535 < 65536 ∧ State.reset.run = .loading ∧
    (running 0 0).run ≠ .loading := by decide

theorem witness_HostNeverAltersARun : (running 0 0).run = .running ∧
    (halt (running 0 0)).run ≠ .loading ∧ (∀ f, HostOp.beginExecution ≠ .reset f) ∧
    (halt (running 0 0)).run = .halted ∧ (raise (running 0 0) .outOfRange (.index 0)).run = .faulted ∧
    State.reset.run = .loading :=
  ⟨rfl, by decide, nofun, rfl, rfl, rfl⟩

theorem witness_BadHostArguments : State.reset.run = .loading ∧ (-1 : Int) < 0 ∧
    (65536 : Int) ≤ 65536 ∧ (512 : Int) ≤ 512 := by decide

theorem witness_LoadingEndsInALaunchState :
    (hostRun [.appendWord 0xF025, .beginExecution] (State.resetWith 5)).run = .running ∧
    ∀ g, HostOp.reset g ∉ [HostOp.appendWord 0xF025, .beginExecution] :=
  ⟨by decide, fun g h => by simp at h⟩

theorem witness_HostInspects : State.reset.run = .loading ∧ (halt (running 0 0)).run = .halted ∧
    (raise (running 0 0) .outOfRange (.index 0)).run = .faulted ∧ 65535 < 65536 := by decide

end Sys2Proof.Tests
end

/-! # Proofs of the state family (spec/10_state.md)

Reset and the registers; what no run changes; the flag; the invariant of the engine.
The laws of `Effect` and of a run below say once what an instruction, a step and a run keep. -/

namespace Sys2Proof.Machine

/-! ## What a label binding, an effect, a step and a run keep -/

theorem isBound_of_sym {s t : State} (h : t.sym = s.sym) (l : Label) : isBound t l = isBound s l := by
  simp only [isBound, symResolve_of_sym h]

/-- Rebinding a bound label binds no other (R14, R37). -/
theorem isBound_symBind_of_bound {s : State} {l : Label} {a : Word} (h : symResolve s l = some a)
    (v : Word) (k : Label) : isBound (symBind s l.val v) k = isBound s k := by
  simp only [isBound, symResolve_symBind, ← Fin.ext_iff]
  by_cases hk : k = l
  · simp [hk, h]
  · simp [hk]

theorem dest_of_mem_branchesOn {i : Instr} {l : Label} (h : i ∈ branchesOn l) : i.dest = none := by
  simp only [branchesOn, List.mem_cons, List.not_mem_nil, or_false] at h
  rcases h with rfl | rfl | rfl | rfl | rfl | rfl | rfl | rfl <;> rfl

/-- No instruction writes the program store (R16). -/
theorem Effect.prog_eq {i : Instr} {s t : State} (h : Effect i s t) : t.prog = s.prog := by
  cases h <;> rfl

/-- Only ST writes the symbol table, and it rebinds a bound label (R14). -/
theorem Effect.isBound_eq {i : Instr} {s t : State} (h : Effect i s t) (l : Label) :
    isBound t l = isBound s l := by
  cases h with
  | symStore r k a _ hk => exact isBound_symBind_of_bound hk (readReg s r) l
  | _ => exact isBound_of_sym rfl l

/-- An effect is a result written to destination and flag alike, or it leaves the flag, and then the
instruction has no destination or a fault kept it from writing (R13). -/
theorem Effect.result_or_flag_eq {i : Instr} {s t : State} (h : Effect i s t) :
    (∃ d v, i.dest = some d ∧ t = writeResult s d v) ∨
      (t.flag = s.flag ∧ (i.dest = none ∨ t.run = .faulted)) := by
  cases h with
  | result d v hi => exact .inl ⟨d, v, hi, rfl⟩
  | jump l a hi | fallThrough l a hi => exact .inr ⟨rfl, .inl (dest_of_mem_branchesOn hi)⟩
  | symStore r l a hi | memStore r l a n hi | halted hi => exact .inr ⟨rfl, .inl (hi ▸ rfl)⟩
  | unbound | badAddress | illFormed => exact .inr ⟨rfl, .inr rfl⟩

theorem step_keeps_prog {s t : State} (h : step s = .next t) : t.prog = s.prog := by
  obtain ⟨-, ⟨w, i, -, -, he⟩ | ⟨-, rfl⟩ | ⟨w, r, -, -, rfl⟩⟩ := step_next_cases h
  · exact he.prog_eq
  · rfl
  · rfl

theorem step_keeps_isBound {s t : State} (h : step s = .next t) (l : Label) :
    isBound t l = isBound s l := by
  obtain ⟨-, ⟨w, i, -, -, he⟩ | ⟨-, rfl⟩ | ⟨w, r, -, -, rfl⟩⟩ := step_next_cases h
  · exact he.isBound_eq l
  · exact isBound_of_sym rfl l
  · exact isBound_of_sym rfl l

/-- A step that fetches `i` and answers a next state has the effect of `i`, from Running. -/
theorem effect_of_fetches {s t : State} {i : Instr} (h : step s = .next t) (hf : Fetches s i) :
    s.run = .running ∧ Effect i s t := by
  obtain ⟨w, hw, hd⟩ := hf
  obtain ⟨hr, hc⟩ := step_next_cases h
  refine ⟨hr, ?_⟩
  rcases hc with ⟨w', i', hw', hd', he⟩ | ⟨hn, -⟩ | ⟨w', r, hw', hd', -⟩
  · cases hw.symm.trans hw'
    cases hd.symm.trans hd'
    exact he
  · cases hw.symm.trans hn
  · cases hw.symm.trans hw'
    cases hd.symm.trans hd'

/-- A run of `k + 1` steps that answers a next state is a step and then a run of `k`. -/
theorem run_succ_next {M : Host.Core} {k : Nat} {s t : M.State} (h : M.run (k + 1) s = .next t) :
    ∃ u, M.step s = .next u ∧ M.run k u = .next t := by
  rw [Host.Core.run] at h
  cases hs : M.step s with
  | next u => rw [hs] at h; exact ⟨u, rfl, h⟩
  | fault r => rw [hs] at h; cases h
  | refused r => rw [hs] at h; cases h

/-- What every step of a machine keeps, a run of any length keeps. -/
theorem run_keeps {M : Host.Core} {α : Type} (f : M.State → α)
    (hstep : ∀ s t, M.step s = .next t → f t = f s) (k : Nat) (s t : M.State)
    (h : M.run k s = .next t) : f t = f s := by
  induction k generalizing s with
  | zero => cases h; rfl
  | succ k ih =>
    obtain ⟨u, hu, ht⟩ := run_succ_next h
    exact (ih u ht).trans (hstep s u hu)

/-- Settles O41: every step keeps the store and the boundness of each label, hence every run does. -/
theorem runsKeepProgramAndBoundLabels : Obligations.RunsKeepProgramAndBoundLabels := by
  intro k s t h
  exact ⟨run_keeps (M := Sys2Proof.core) State.prog (fun _ _ => step_keeps_prog) k s t h,
    fun l => run_keeps (M := Sys2Proof.core) (isBound · l) (fun _ _ hs => step_keeps_isBound hs l) k s t h⟩

/-! ## The invariant -/

theorem decodeBranch_mem_branchesOn (w : Word) : decodeBranch w ∈ branchesOn (labelField w) := by
  unfold decodeBranch
  split <;> simp [branchesOn]

/-- The TRAP has one word, so an engine that executes it stands at that word (R115). -/
theorem word_of_decode_trap {w : Word} {v : Nat} (h : decode w = .ok (.trap v)) : w = 0xF025 := by
  unfold decode at h
  split at h
  case h_1 =>
    have hb := decodeBranch_mem_branchesOn w
    rw [Except.ok.inj h] at hb
    simp [branchesOn] at hb
  case h_9 hop =>
    split_ifs at h with hhigh hvec
    have hop' : w.toNat / 4096 = 15 := opcodeField_eq w ▸ hop
    have hhigh' : w.toNat / 256 % 16 = 0 := (extract_eq_iff w 8 4 0).mp hhigh
    have hvec' : w.toNat % 256 = 0x25 := vectorField_eq w ▸ hvec
    have hw : w.toNat = 0xF025 := by omega
    exact BitVec.eq_of_toNat_eq hw
  all_goals (repeat' split at h) <;> cases h

/-- The index of a fetched instruction is inside the store, so the next index is inside the range of
`pc` (R12, R16). -/
theorem State.Inv.next_pc_range {s : State} {w : Word} (hi : s.Inv)
    (hw : progFetch s s.pc = some w) : Config.pcMin ≤ s.pc + 1 ∧ s.pc + 1 ≤ Config.pcMax := by
  obtain ⟨h0, hget⟩ := progFetch_eq_some.mp hw
  have hlt := (List.getElem?_eq_some_iff.mp hget).1
  have hfit := hi.progFits
  simp only [Config.progMax, Config.pcMin, Config.pcMax] at *
  omega

theorem s16_pc_range (v : Word) : Config.pcMin ≤ s16 v ∧ s16 v ≤ Config.pcMax := by
  have := s16_range v
  simp only [Config.pcMin, Config.pcMax]
  omega

/-- A running state with the same store and fault record as a running state that meets the invariant meets
it too, if the parts an instruction may write are in form. -/
theorem State.Inv.of_running {s t : State} (hi : s.Inv) (hs : s.run = .running)
    (hrun : t.run = s.run) (hprog : t.prog = s.prog) (hfault : t.fault = s.fault)
    (hmem : Memory.wf t.mem) (hsym : SymTable.wf t.sym)
    (hpc : Config.pcMin ≤ t.pc ∧ t.pc ≤ Config.pcMax) : t.Inv where
  memWf := hmem
  symWf := hsym
  progFits := hprog ▸ hi.progFits
  progLegal := hprog ▸ hi.progLegal
  pcRange := hpc
  faultedIffRecorded := by rw [hrun, hfault]; exact hi.faultedIffRecorded
  unrecordedIsClear := hfault ▸ hi.unrecordedIsClear
  loadingIsFresh h := by rw [hrun, hs] at h; cases h
  haltedAtTrap h := by rw [hrun, hs] at h; cases h

/-- Fault entry keeps the invariant (R126). -/
theorem State.Inv.raise {s : State} (hi : s.Inv) {kind : FaultKind} (hk : kind ≠ .none)
    (info : FaultInfo) : (raise s kind info).Inv where
  memWf := hi.memWf
  symWf := hi.symWf
  progFits := hi.progFits
  progLegal := hi.progLegal
  pcRange := hi.pcRange
  faultedIffRecorded := iff_of_true rfl hk
  unrecordedIsClear h := absurd h hk
  loadingIsFresh h := by cases h
  haltedAtTrap h := by cases h

/-- The halt of a running engine at the word of TRAP x25 keeps the invariant (R115). -/
theorem State.Inv.halt {s : State} (hi : s.Inv) (hs : s.run = .running)
    (hw : progFetch s s.pc = some 0xF025) : (halt s).Inv where
  memWf := hi.memWf
  symWf := hi.symWf
  progFits := hi.progFits
  progLegal := hi.progLegal
  pcRange := hi.pcRange
  faultedIffRecorded := by
    rw [halt_fault, ← hi.faultedIffRecorded, hs, halt_run]
    decide
  unrecordedIsClear := hi.unrecordedIsClear
  loadingIsFresh h := by cases h
  haltedAtTrap _ := hw

/-- The effect of the fetched instruction keeps the invariant. -/
theorem Effect.keeps_inv {i : Instr} {s t : State} {w : Word} (he : Effect i s t) (hi : s.Inv)
    (hs : s.run = .running) (hw : progFetch s s.pc = some w) (hd : decode w = .ok i) : t.Inv := by
  cases he with
  | result d v | fallThrough l a =>
    exact hi.of_running hs rfl rfl rfl hi.memWf hi.symWf (hi.next_pc_range hw)
  | jump l a => exact hi.of_running hs rfl rfl rfl hi.memWf hi.symWf (s16_pc_range a)
  | symStore r l a =>
    exact hi.of_running hs rfl rfl rfl hi.memWf (symTable_wf_insert _ hi.symWf l.isLt)
      (hi.next_pc_range hw)
  | memStore r l a n _ _ hn =>
    have hcell : n < Config.memCells := (effAddr_eq_some.mp hn).2.trans (by decide)
    exact hi.of_running hs rfl rfl rfl (memory_wf_write _ hi.memWf hcell) hi.symWf
      (hi.next_pc_range hw)
  | halted htrap =>
    subst htrap
    cases word_of_decode_trap hd
    exact hi.halt hs hw
  | unbound | badAddress | illFormed => exact hi.raise (by decide) _

/-- Settles O42: the executed instruction's effect keeps the invariant, and so does the fault entry of the
fetch and of the decoder. -/
theorem stepKeepsTheInvariant : Obligations.StepKeepsTheInvariant := by
  intro s t hi h
  obtain ⟨hs, ⟨w, i, hw, hd, he⟩ | ⟨-, rfl⟩ | ⟨w, r, -, -, rfl⟩⟩ := step_next_cases h
  · exact he.keeps_inv hi hs hw hd
  · exact hi.raise (by decide) _
  · exact hi.raise (by decide) _

theorem inv_resetWith (f : Word) : (State.resetWith f).Inv where
  memWf := memory_wf_reset f
  symWf := ⟨List.Pairwise.nil, fun _ h => absurd h List.not_mem_nil⟩
  progFits := Nat.zero_le _
  progLegal _ h := absurd h List.not_mem_nil
  pcRange := by rw [resetWith_pc]; decide
  faultedIffRecorded := by rw [resetWith_run, resetWith_fault]; decide
  unrecordedIsClear _ := resetWith_fault f
  loadingIsFresh _ := ⟨resetWith_regs f, resetWith_pc f⟩
  haltedAtTrap h := by cases h

/-- Settles O2: `inv_resetWith`, for every flag and for the model's own. -/
theorem invariantHoldsAtReset : Obligations.InvariantHoldsAtReset :=
  ⟨inv_resetWith, rfl, inv_resetWith Config.flagReset⟩

/-! ## The flag, the registers and reset -/

/-- Settles O40: by the two shapes of an effect, a result or an untouched flag. -/
theorem flagIsTheLastResult : Obligations.FlagIsTheLastResult := by
  intro s t i h hf
  obtain ⟨hs, he⟩ := effect_of_fetches h hf
  rcases he.result_or_flag_eq with ⟨d, v, hd, rfl⟩ | ⟨hflag, hwhy⟩
  · have hrun : (writeResult s d v).run ≠ .faulted := by rw [writeResult_run, hs]; decide
    refine ⟨fun hn => absurd (hd.symm.trans hn) nofun, fun hr => absurd hr hrun, fun d' hd' _ => ?_⟩
    cases hd.symm.trans hd'
    rw [readReg_writeResult, if_pos rfl, writeResult_flag]
  · refine ⟨fun _ => hflag, fun _ => hflag, fun d hd hr => ?_⟩
    rcases hwhy with hn | hr'
    · cases hd.symm.trans hn
    · exact absurd hr' hr

theorem readReg_resetWith (f : Word) (r : Reg) : readReg (State.resetWith f) r = 0 := by
  simp [readReg]

/-- Settles O1: the fields as `resetWith` gives them, and `beginExecution` writes index 0. -/
theorem resetLeavesTheTableOfR21 : Obligations.ResetLeavesTheTableOfR21 := by
  intro f
  exact ⟨readReg_resetWith f, fun _ _ => rfl, rfl, fun _ => rfl, rfl, rfl, rfl, rfl, rfl, rfl, rfl, rfl⟩

/-- Settles O3: read after write, and `writeReg` is an update of the registers alone. -/
theorem registersAreIndependent : Obligations.RegistersAreIndependent := by
  intro s i j v
  exact ⟨readReg_writeReg s i j v, s.regs.set i v, rfl⟩

end Sys2Proof.Machine

/-! # Proofs of the memory family (spec/20_memory.md)

The upper half of MEM is out of a program's reach; the round trips through memory and through a label; the
access primitives R35 to R38. -/

namespace Sys2Proof.Machine

/-! ## What a step does, by what the fetch gives -/

theorem step_of_decoded {s : State} {w : Word} {i : Instr} (hr : s.run = .running)
    (hw : progFetch s s.pc = some w) (hd : decode w = .ok i) : step s = exec i s := by
  simp only [step_running hr, fetchInstr, hw, hd]

theorem step_of_decode_error {s : State} {w : Word} {r : DecodeReject} (hr : s.run = .running)
    (hw : progFetch s s.pc = some w) (hd : decode w = .error r) :
    step s = .next (raise s .configurationError (.word w)) := by
  simp only [step_running hr, fetchInstr, hw, hd]

theorem step_of_fetch_none {s : State} (hr : s.run = .running) (hw : progFetch s s.pc = none) :
    step s = .next (raise s .outOfRange (.index s.pc)) := by
  simp only [step_running hr, fetchInstr, hw]

/-! ## The label instructions in terms of `withLabel` -/

/-- ST resolves its label like every other label instruction (R37, R125 item 3). -/
theorem execSt_eq_withLabel (r : Reg) (l : Label) (s : State) :
    execSt r l s = withLabel s l (fun _ => .next (advance (symBind s l.val (readReg s r)))) := by
  rcases execSt_cases r l s with ⟨a, ha, h⟩ | ⟨hn, h⟩
  · rw [h, withLabel_bound ha]
  · rw [h, withLabel_unbound hn]

/-- An instruction with a label operand resolves that label before anything else (R125 item 3, R122). -/
theorem exec_unbound {i : Instr} {l : Label} {s : State} (hi : i.labelOperand = some l)
    (h : symResolve s l = none) : exec i s = .next (raise s .unboundLabel (.label l)) := by
  cases i with
  | addReg | addImm | andReg | andImm | notReg | trap => cases hi
  | br | brn | brz | brp | brnz | brzp | brnp | brnzp | ld | ldi | sti =>
    cases hi
    exact withLabel_unbound h _
  | st r =>
    cases hi
    exact (execSt_eq_withLabel r l s).trans (withLabel_unbound h _)

theorem labelIndirect_address {s : State} {l : Label} {a : Word} {n : Nat}
    (ha : symResolve s l = some a) (hn : effAddr a = some n)
    (k : Nat → Host.Outcome State Fault Refusal) : labelIndirect s l k = k n :=
  (withLabel_bound ha _).trans (withAddress_some hn k)

/-- A label that holds no non-negative value makes LDI and STI fault (R122, R124). -/
theorem labelIndirect_faulted {s : State} {l : Label}
    (h : ∀ a, symResolve s l = some a → s16 a < 0) (k : Nat → Host.Outcome State Fault Refusal) :
    ∃ t, labelIndirect s l k = .next t ∧ t.run = .faulted := by
  rcases labelIndirect_cases s l k with ⟨a, n, ha, hn, -⟩ | ⟨a, -, -, hk⟩ | ⟨-, hk⟩
  · have hnone := effAddr_eq_none.mpr (h a ha)
    exact absurd (hn.symm.trans hnone) nofun
  · exact ⟨_, hk, rfl⟩
  · exact ⟨_, hk, rfl⟩

/-! ## States that agree below 32768 stay so under every operation of the engine -/

namespace AgreeBelow

variable {s s' : State} (h : AgreeBelow s s')
include h

theorem readReg_eq (r : Reg) : readReg s' r = readReg s r := readReg_of_regs h.regs r

theorem symResolve_eq (l : Label) : symResolve s' l = symResolve s l := symResolve_of_sym h.sym l

theorem progFetch_eq : progFetch s' s'.pc = progFetch s s.pc := by
  rw [h.pc, progFetch_of_prog h.prog]

theorem setPc (t : Int) : AgreeBelow (setPc s t) (setPc s' t) := { h with pc := rfl }

theorem advance : AgreeBelow (advance s) (advance s') :=
  { h with pc := congrArg (· + 1) h.pc }

theorem halt : AgreeBelow (halt s) (halt s') := { h with run := rfl }

theorem raise (kind : FaultKind) (info : FaultInfo) :
    AgreeBelow (raise s kind info) (raise s' kind info) :=
  { h with run := rfl, fault := by rw [raise_fault, raise_fault, h.pc] }

theorem writeResult (d : Reg) (v : Word) : AgreeBelow (writeResult s d v) (writeResult s' d v) :=
  { h.advance with regs := congrArg (·.set d v) h.regs, flag := rfl }

theorem symBind (l : Nat) (v : Word) : AgreeBelow (symBind s l v) (symBind s' l v) :=
  { h with sym := congrArg (Cells.insert · l v) h.sym }

theorem memWrite (n : Nat) (v : Word) : AgreeBelow (memWrite s n v) (memWrite s' n v) :=
  { h with low := fun a ha => by rw [memRead_memWrite, memRead_memWrite, h.low a ha] }

end AgreeBelow

/-- Two outcomes that are next states which agree below 32768. -/
def NextsAgree (o o' : Host.Outcome State Fault Refusal) : Prop :=
  ∃ t t', o = .next t ∧ o' = .next t' ∧ AgreeBelow t t'

theorem AgreeBelow.nexts {t t' : State} (h : AgreeBelow t t') :
    NextsAgree (.next t) (.next t') := ⟨t, t', rfl, rfl, h⟩

theorem NextsAgree.ite {c : Prop} [Decidable c] {o p o' p' : Host.Outcome State Fault Refusal}
    (ho : NextsAgree o o') (hp : NextsAgree p p') :
    NextsAgree (if c then o else p) (if c then o' else p') := by
  split
  · exact ho
  · exact hp

section
variable {s s' : State} (h : AgreeBelow s s')
include h

theorem writeResult_nextsAgree (d : Reg) {v v' : Word} (hv : v' = v) :
    NextsAgree (.next (writeResult s d v)) (.next (writeResult s' d v')) :=
  hv ▸ (h.writeResult d v).nexts

theorem withLabel_nextsAgree (l : Label) {k k' : Word → Host.Outcome State Fault Refusal}
    (hk : ∀ a, NextsAgree (k a) (k' a)) : NextsAgree (withLabel s l k) (withLabel s' l k') := by
  cases ha : symResolve s l with
  | some a =>
    rw [withLabel_bound ha, withLabel_bound ((h.symResolve_eq l).trans ha)]
    exact hk a
  | none =>
    rw [withLabel_unbound ha, withLabel_unbound ((h.symResolve_eq l).trans ha)]
    exact (h.raise _ _).nexts

/-- The address of an indirect access is below 32768 (R36), so the accesses need agree there only. -/
theorem labelIndirect_nextsAgree (l : Label) {k k' : Nat → Host.Outcome State Fault Refusal}
    (hk : ∀ n, n < 32768 → NextsAgree (k n) (k' n)) :
    NextsAgree (labelIndirect s l k) (labelIndirect s' l k') := by
  refine withLabel_nextsAgree h l fun a => ?_
  cases ha : effAddr a with
  | some n =>
    rw [withAddress_some ha, withAddress_some ha]
    exact hk n (effAddr_eq_some.mp ha).2
  | none =>
    rw [withAddress_none ha, withAddress_none ha]
    exact (h.raise _ _).nexts

theorem branch_nextsAgree (c : Cond) (l : Label) : NextsAgree (branch c l s) (branch c l s') := by
  refine withLabel_nextsAgree h l fun a => AgreeBelow.nexts ?_
  rw [h.flag]
  split
  · exact h.setPc _
  · exact h.advance

/-- Every instruction does the same to the part of the state that a program can reach. -/
theorem exec_nextsAgree (i : Instr) : NextsAgree (exec i s) (exec i s') := by
  have hreg (r : Reg) : regOperand s' r = regOperand s r := h.readReg_eq r
  cases i with
  | addReg d a b => exact writeResult_nextsAgree h d (by rw [hreg, hreg])
  | addImm d a imm => exact .ite (writeResult_nextsAgree h d (by rw [hreg])) (h.raise _ _).nexts
  | andReg d a b => exact writeResult_nextsAgree h d (by rw [hreg, hreg])
  | andImm d a imm => exact .ite (writeResult_nextsAgree h d (by rw [hreg])) (h.raise _ _).nexts
  | notReg d a => exact writeResult_nextsAgree h d (by rw [hreg])
  | br l | brn l | brz l | brp l | brnz l | brzp l | brnp l | brnzp l =>
    exact branch_nextsAgree h _ l
  | ld d l => exact withLabel_nextsAgree h l fun v => (h.writeResult d v).nexts
  | ldi d l =>
    exact labelIndirect_nextsAgree h l fun n hn => writeResult_nextsAgree h d (h.low n hn)
  | st r l =>
    simp only [exec, execSt_eq_withLabel, h.readReg_eq]
    exact withLabel_nextsAgree h l fun _ => (h.symBind _ _).advance.nexts
  | sti r l =>
    simp only [exec, execSti, hreg]
    exact labelIndirect_nextsAgree h l fun n _ => (h.memWrite n _).advance.nexts
  | trap v => exact .ite h.halt.nexts (h.raise _ _).nexts

theorem step_nextsAgree (hr : s.run = .running) : NextsAgree (step s) (step s') := by
  have hr' : s'.run = .running := h.run.trans hr
  have hfetch : progFetch s' s'.pc = progFetch s s.pc := h.progFetch_eq
  rcases step_running_cases hr with ⟨w, i, hw, hd, hs⟩ | ⟨hw, hs⟩ | ⟨w, r, hw, hd, hs⟩
  · rw [hs, step_of_decoded hr' (hfetch.trans hw) hd]
    exact exec_nextsAgree h i
  · rw [hs, step_of_fetch_none hr' (hfetch.trans hw), h.pc]
    exact (h.raise _ _).nexts
  · rw [hs, step_of_decode_error hr' (hfetch.trans hw) hd]
    exact (h.raise _ _).nexts

end

/-- The one instruction that writes MEM has an address below 32768 (R36). -/
theorem Effect.memRead_upper {i : Instr} {s t : State} (he : Effect i s t) {a : Nat}
    (ha : 32768 ≤ a) : memRead t a = memRead s a := by
  cases he with
  | memStore r l v n _ _ hn =>
    have hne : a ≠ n := by
      have := (effAddr_eq_some.mp hn).2
      omega
    exact (memRead_memWrite s n a (readReg s r)).trans (if_neg hne)
  | _ => exact memRead_of_mem rfl a

theorem step_keeps_memRead_upper {s t : State} (h : step s = .next t) {a : Nat} (ha : 32768 ≤ a) :
    memRead t a = memRead s a := by
  obtain ⟨-, ⟨w, i, -, -, he⟩ | ⟨-, rfl⟩ | ⟨w, r, -, -, rfl⟩⟩ := step_next_cases h
  · exact he.memRead_upper ha
  · exact memRead_of_mem rfl a
  · exact memRead_of_mem rfl a

/-- Settles O45: an effective address is below 32768, so no write reaches a cell above, and two runs that
agree below read the same at every access. -/
theorem upperMemoryIsOutOfReach : Obligations.UpperMemoryIsOutOfReach := by
  refine ⟨fun s t h a ha => step_keeps_memRead_upper h ha, fun s s' t hagree h => ?_⟩
  obtain ⟨u, t', hu, ht', hut⟩ := step_nextsAgree hagree (running_of_step_next h)
  cases hu.symm.trans h
  exact ⟨t', ht', hut⟩

/-! ## The round trips through memory and through a label -/

/-- Settles O32: both instructions resolve the label to the same address, where LDI reads what STI wrote. -/
theorem storeIndirectThenLoadIndirect : Obligations.StoreIndirectThenLoadIndirect := by
  intro r r2 l s
  constructor
  · intro a ha hpos
    obtain ⟨n, hn⟩ : ∃ n, effAddr a = some n := ⟨_, if_pos hpos⟩
    let t := advance (memWrite s n (readReg s r))
    have hcell : memRead t n = readReg s r :=
      (memRead_memWrite s n n (readReg s r)).trans (if_pos rfl)
    have hreg : readReg t r = readReg s r := readReg_of_regs rfl r
    refine ⟨t, writeResult t r2 (memRead t n), labelIndirect_address ha hn _,
      labelIndirect_address (s := t) ha hn _, ?_, hreg, hcell⟩
    rw [readReg_writeResult, if_pos rfl, hcell, hreg]
  · intro hneg
    obtain ⟨t, ht, htf⟩ := labelIndirect_faulted hneg
      (fun n => .next (advance (memWrite s n (readReg s r))))
    obtain ⟨u, hu, huf⟩ := labelIndirect_faulted hneg
      (fun n => .next (writeResult s r2 (memRead s n)))
    exact ⟨t, u, ht, htf, hu, huf⟩

/-- Settles O33: after ST the label resolves to the stored value, which LD and BR use. -/
theorem storeRedirectsTheLabel : Obligations.StoreRedirectsTheLabel := by
  intro r d l s a ha
  let t := advance (symBind s l.val (readReg s r))
  have hst : exec (.st r l) s = .next t := (execSt_eq_withLabel r l s).trans (withLabel_bound ha _)
  have hlabel : symResolve t l = some (readReg s r) :=
    (symResolve_symBind s l.val l (readReg s r)).trans (if_pos rfl)
  refine ⟨t, hst, ⟨writeResult t d (readReg s r), withLabel_bound hlabel _, ?_⟩,
    branch_bound hlabel⟩
  rw [readReg_writeResult, if_pos rfl]

/-! ## The access primitives -/

theorem hostSetMemory_loading {s : State} (hr : s.run = .loading) {a : Nat} (ha : a < 65536) (v : Word) :
    hostStep (.setMemory a v) s = (.done, memWrite s a v) :=
  if_pos ⟨hr, Int.natCast_nonneg a, Int.ofNat_lt.mpr ha⟩

/-- Settles O4: read after write, which `setMemory` in Loading performs; MEM is empty at reset. -/
theorem memoryHoldsTheLastWrite : Obligations.MemoryHoldsTheLastWrite := by
  intro s a b v ha _
  refine ⟨memRead_memWrite s a b v, ⟨s.mem.write a v, rfl⟩, fun hr => ?_, fun _ => rfl⟩
  rw [hostSetMemory_loading hr ha]
  exact memRead_memWrite s a b v

/-- Settles O5: a 16-bit signed value that is not negative is at most 32767. -/
theorem effectiveAddressIsTheSignedValue : Obligations.EffectiveAddressIsTheSignedValue := by
  refine fun v => ⟨fun hpos => ⟨(s16 v).toNat, if_pos hpos, Int.toNat_of_nonneg hpos, ?_⟩,
    effAddr_eq_none.mpr⟩
  have := (s16_range v).2
  omega

/-- Settles O6: a write rebinds the one bound label, and every label instruction resolves its label first. -/
theorem symbolTableResolvesAndWrites : Obligations.SymbolTableResolvesAndWrites := by
  intro s l v
  constructor
  · intro a ha
    refine ⟨symBind s l.val v, symWrite_bound v ha, ?_, fun k hk => ?_, Cells.insert s.sym l v, rfl⟩
    · rw [symResolve_symBind, if_pos rfl]
    · rw [symResolve_symBind, if_neg (Fin.val_ne_of_ne hk)]
  · intro hn
    exact ⟨symWrite_unbound v hn, fun _ hi => exec_unbound hi hn⟩

/-- Settles O7: outside the store `progFetch` gives none, and the step is then the OutOfRange entry. -/
theorem fetchOutsideTheStoreFaults : Obligations.FetchOutsideTheStoreFaults := by
  intro s
  exact ⟨fun n _ => if_pos (Int.natCast_nonneg n), fun _ => progFetch_eq_none.mpr,
    fun hr hout => step_of_fetch_none hr (progFetch_eq_none.mpr hout)⟩

end Sys2Proof.Machine

/-! # Proofs of the encoding family (spec/30_encoding.md)

The decoder from two sides: what each of its answers says of the word (`decode_answerFits`), and what it answers
on a word that matches a row of the opcode table (`decode_of_row`). -/

namespace Sys2Proof

/-! ## What each answer of the decoder says of the word -/

/-- The illegal classes of R59, as digits of the word's number. -/
def IllegalClass : DecodeReject → Nat → Prop
  | .unusedOpcode, n => n / 4096 ∈ [4, 6, 7, 8, 12, 13, 14]
  | .registerFormBits, n => n / 4096 ∈ [1, 5] ∧ n / 32 % 2 = 0 ∧ n / 8 % 4 ≠ 0
  | .notBits, n => n / 4096 = 9 ∧ n % 64 ≠ 63
  | .trapHighBits, n => n / 4096 = 15 ∧ n / 256 % 16 ≠ 0
  | .trapVector, n => n / 4096 = 15 ∧ n / 256 % 16 = 0 ∧ n % 256 ≠ 0x25

/-- What an answer to the word with number `n` has to say: the well-formed instruction behind `n`, or the
class that makes `n` illegal (R57, R59). -/
def AnswerFits (n : Nat) : Except DecodeReject Instr → Prop
  | .ok i => i.wellFormed = true ∧ encodeNat i = n
  | .error r => IllegalClass r n

/-! The checks of the decoder as arithmetic on the word's number, beside `formBit_iff`. -/

theorem registerFormBits_iff (w : Word) : w.extractLsb' 3 2 = 0 ↔ w.toNat / 8 % 4 = 0 :=
  extract_eq_iff w 3 2 0

theorem notBits_iff (w : Word) : w.extractLsb' 0 6 = 0b111111 ↔ w.toNat % 64 = 63 := by
  simpa using extract_eq_iff w 0 6 63

theorem trapHighBits_iff (w : Word) : w.extractLsb' 8 4 = 0 ↔ w.toNat / 256 % 16 = 0 :=
  extract_eq_iff w 8 4 0

/-- The immediate field keeps the five digits it reads (R54). -/
theorem immField_residue (w : Word) : (immField w % 32).toNat = w.toNat % 32 := by
  rw [immField_eq]
  split <;> omega

theorem decodeBranch_wellFormed (w : Word) : (decodeBranch w).wellFormed = true := by
  unfold decodeBranch
  split <;> rfl

/-- A branch keeps the digits of the condition and of the label (R57, R66). -/
theorem encodeNat_decodeBranch (w : Word) : encodeNat (decodeBranch w) = w.toNat % 4096 := by
  unfold decodeBranch
  have hlabel := labelField_val w
  have hcond : (w.extractLsb' 9 3).toNat = w.toNat / 512 % 8 := extract_toNat w 9 3
  split <;> simp only [encodeNat, imp_false] at * <;> omega

/-- Every answer of the decoder is the well-formed instruction behind the word, or names the word's class. -/
theorem decode_answerFits (w : Word) : AnswerFits w.toNat (decode w) := by
  have hlabel := labelField_val w
  have hreg9 := regField_val w 9
  have hreg6 := regField_val w 6
  have hreg0 := regField_val w 0
  have himm := immField_residue w
  have hwf := decide_eq_true (immField_range w)
  simp only [decode, opcodeField_eq, formBit_iff, registerFormBits_iff, notBits_iff, trapHighBits_iff,
    vectorField_eq]
  split
  case h_1 hop => exact ⟨decodeBranch_wellFormed w, by rw [encodeNat_decodeBranch]; omega⟩
  case h_2 hop | h_5 hop =>
    split_ifs with hform hbits
    · exact ⟨hwf, by simp only [encodeNat]; omega⟩
    · exact ⟨rfl, by simp only [encodeNat]; omega⟩
    · exact ⟨by simp [hop], by omega, hbits⟩
  case h_3 hop | h_4 hop | h_7 hop | h_8 hop => exact ⟨rfl, by simp only [encodeNat]; omega⟩
  case h_6 hop =>
    split_ifs with hones
    · exact ⟨rfl, by simp only [encodeNat]; omega⟩
    · exact ⟨hop, hones⟩
  case h_9 hop =>
    split_ifs with hhigh hvec
    · exact ⟨decide_eq_true hvec, by simp only [encodeNat]; omega⟩
    · exact ⟨hop, hhigh, hvec⟩
    · exact ⟨hop, hhigh⟩
  case h_10 =>
    have hlt := w.isLt
    simp only [AnswerFits, IllegalClass, List.mem_cons, List.not_mem_nil, or_false, imp_false] at *
    omega

/-- Encoding inverts decoding. -/
theorem encode_of_decode {w : Word} {i : Instr} (h : decode w = .ok i) : encode i = w := by
  obtain ⟨-, hn⟩ : AnswerFits w.toNat (.ok i) := h ▸ decode_answerFits w
  rw [encode, hn, BitVec.ofNat_toNat, BitVec.setWidth_eq]

theorem wellFormed_of_decode {w : Word} {i : Instr} (h : decode w = .ok i) : i.wellFormed = true := by
  obtain ⟨hwf, -⟩ : AnswerFits w.toNat (.ok i) := h ▸ decode_answerFits w
  exact hwf

theorem illegalClass_of_decode {w : Word} {r : DecodeReject} (h : decode w = .error r) :
    IllegalClass r w.toNat := by
  have hr : AnswerFits w.toNat (.error r) := h ▸ decode_answerFits w
  exact hr

/-- The decoder names the class of an illegal word. -/
theorem decode_of_illegalClass {w : Word} {r : DecodeReject} (h : IllegalClass r w.toNat) :
    decode w = .error r := by
  simp only [decode, opcodeField_eq, formBit_iff, registerFormBits_iff, notBits_iff, trapHighBits_iff,
    vectorField_eq]
  cases r with
  | unusedOpcode =>
    simp only [IllegalClass, List.mem_cons, List.not_mem_nil, or_false] at h
    rcases h with hop | hop | hop | hop | hop | hop | hop <;> rw [hop] <;> rfl
  | registerFormBits =>
    obtain ⟨hop, hform, hbits⟩ := h
    have hform : w.toNat / 32 % 2 ≠ 1 := by omega
    simp only [List.mem_cons, List.not_mem_nil, or_false] at hop
    rcases hop with hop | hop <;> rw [hop] <;> exact (if_neg hform).trans (if_neg hbits)
  | notBits =>
    obtain ⟨hop, hones⟩ := h
    rw [hop]
    exact if_neg hones
  | trapHighBits =>
    obtain ⟨hop, hhigh⟩ := h
    rw [hop]
    exact if_neg hhigh
  | trapVector =>
    obtain ⟨hop, hhigh, hvec⟩ := h
    rw [hop]
    exact (if_pos hhigh).trans (if_neg hvec)

theorem decode_eq_error_iff (w : Word) (r : DecodeReject) :
    decode w = .error r ↔ IllegalClass r w.toNat :=
  ⟨illegalClass_of_decode, decode_of_illegalClass⟩

/-! ## The rows of the table -/

theorem OpcodeRow.accepts_iff {r : OpcodeRow} {w : Word} : r.accepts w = true ↔ w &&& r.mask = r.bits :=
  beq_iff_eq

/-- One instruction of each form, in the order of the table. -/
def Instr.forms : List Instr :=
  [.addReg 0 0 0, .addImm 0 0 0, .andReg 0 0 0, .andImm 0 0 0, .notReg 0 0, .br 0, .brn 0, .brz 0, .brp 0,
   .brnz 0, .brzp 0, .brnp 0, .brnzp 0, .ld 0 0, .ldi 0 0, .st 0 0, .sti 0 0, .trap Config.haltVector]

theorem opcodeRows_eq_rows_of_forms : opcodeRows = Instr.forms.map Instr.row := rfl

theorem row_mem_opcodeRows (i : Instr) : i.row ∈ opcodeRows := by
  cases i <;> simp [Instr.row, opcodeRows]

/-- Every row fixes the opcode (R51). -/
theorem rows_fix_the_opcode : ∀ r ∈ opcodeRows, r.mask.extractLsb' 12 4 = BitVec.allOnes 4 := by decide

/-- Two rows whose fixed bits agree where both fix them are one row. -/
theorem row_eq_of_bits_agree : ∀ r ∈ opcodeRows, ∀ r' ∈ opcodeRows,
    r.bits &&& r'.mask = r'.bits &&& r.mask → r = r' := by decide

/-- No word matches two rows (R58). -/
theorem row_unique {r r' : OpcodeRow} {w : Word} (hr : r ∈ opcodeRows) (hr' : r' ∈ opcodeRows)
    (h : r.accepts w = true) (h' : r'.accepts w = true) : r = r' := by
  refine row_eq_of_bits_agree r hr r' hr' ?_
  rw [← OpcodeRow.accepts_iff.mp h, ← OpcodeRow.accepts_iff.mp h']
  ac_rfl

/-! ## What the decoder answers on a word that matches a row -/

/-- The instruction of the same form as the given one, with its operands read from `w`. -/
def Instr.readFrom (w : Word) : Instr → Instr
  | .addReg _ _ _ => .addReg (regField w 9) (regField w 6) (regField w 0)
  | .addImm _ _ _ => .addImm (regField w 9) (regField w 6) (immField w)
  | .andReg _ _ _ => .andReg (regField w 9) (regField w 6) (regField w 0)
  | .andImm _ _ _ => .andImm (regField w 9) (regField w 6) (immField w)
  | .notReg _ _ => .notReg (regField w 9) (regField w 6)
  | .br _ => .br (labelField w)
  | .brn _ => .brn (labelField w)
  | .brz _ => .brz (labelField w)
  | .brp _ => .brp (labelField w)
  | .brnz _ => .brnz (labelField w)
  | .brzp _ => .brzp (labelField w)
  | .brnp _ => .brnp (labelField w)
  | .brnzp _ => .brnzp (labelField w)
  | .ld _ _ => .ld (regField w 9) (labelField w)
  | .ldi _ _ => .ldi (regField w 9) (labelField w)
  | .st _ _ => .st (regField w 9) (labelField w)
  | .sti _ _ => .sti (regField w 9) (labelField w)
  | .trap _ => .trap (vectorField w)

/-- A field that a mask covers holds the fixed bits in every word that matches them. -/
theorem extract_of_and {w mask bits : Word} (h : w &&& mask = bits) (lo len : Nat)
    (hmask : mask.extractLsb' lo len = BitVec.allOnes len) :
    w.extractLsb' lo len = bits.extractLsb' lo len := by
  rw [← h, BitVec.extractLsb'_and, hmask, BitVec.and_allOnes]

theorem getLsbD_of_and {w mask bits : Word} (h : w &&& mask = bits) (k : Nat)
    (hmask : mask.getLsbD k = true) : w.getLsbD k = bits.getLsbD k := by
  rw [← h, BitVec.getLsbD_and, hmask, Bool.and_true]

/-- A word that matches a row decodes to the row's form, with its operands read from the word. -/
theorem decode_of_row {i : Instr} {w : Word} (h : i.row.accepts w = true) :
    decode w = .ok (i.readFrom w) := by
  have hop : opcodeField w = opcodeField i.row.bits :=
    congrArg BitVec.toNat (extract_of_and (OpcodeRow.accepts_iff.mp h) 12 4
      (rows_fix_the_opcode _ (row_mem_opcodeRows i)))
  rw [OpcodeRow.accepts_iff] at h
  unfold decode
  rw [hop]
  cases i with
  | addReg d a b | andReg d a b =>
    simp only [Instr.row] at h ⊢
    have hform : w.getLsbD 5 = false := getLsbD_of_and h 5 rfl
    have hbits : w.extractLsb' 3 2 = 0 := extract_of_and h 3 2 rfl
    exact (if_neg (ne_true_of_eq_false hform)).trans (if_pos hbits)
  | addImm d a imm | andImm d a imm =>
    simp only [Instr.row] at h ⊢
    have hform : w.getLsbD 5 = true := getLsbD_of_and h 5 rfl
    exact if_pos hform
  | notReg d a =>
    simp only [Instr.row] at h ⊢
    have hones : w.extractLsb' 0 6 = 63 := extract_of_and h 0 6 rfl
    exact if_pos hones
  | br l | brn l | brz l | brp l | brnz l | brzp l | brnp l | brnzp l =>
    simp only [Instr.row] at h ⊢
    change Except.ok (decodeBranch w) = _
    rw [decodeBranch, extract_of_and h 9 3 rfl]
    rfl
  | ld d l | ldi d l | st r l | sti r l =>
    simp only [Instr.row]
    rfl
  | trap v =>
    simp only [Instr.row] at h ⊢
    obtain rfl : w = 0xF025 := (BitVec.and_allOnes (x := w)).symm.trans h
    rfl

/-! ## The operands of an encoded instruction -/

theorem regField_eq {w : Word} {lo : Nat} {r : Reg} (h : w.toNat / 2 ^ lo % 8 = r.val) :
    regField w lo = r :=
  Fin.ext ((regField_val w lo).trans h)

theorem labelField_eq {w : Word} {l : Label} (h : w.toNat % 512 = l.val) : labelField w = l :=
  Fin.ext ((labelField_val w).trans h)

/-- A legal immediate is read back from its five digits (R54). -/
theorem immField_of_residue {w : Word} {imm : Int} (hw : w.toNat % 32 = (imm % 32).toNat)
    (hl : immLegal imm) : immField w = imm := by
  rw [immField_eq]
  simp only [immLegal, Config.immMin, Config.immMax] at hl
  split <;> omega

/-- Reading the operands of a well-formed instruction from its word gives the instruction back. -/
theorem readFrom_encode {i : Instr} (h : i.wellFormed = true) : i.readFrom (encode i) = i := by
  have hn := encode_toNat i h
  cases i with
  | addReg d a b | andReg d a b =>
    simp only [encodeNat, Instr.readFrom] at hn ⊢
    rw [regField_eq (r := d) (by omega), regField_eq (r := a) (by omega), regField_eq (r := b) (by omega)]
  | addImm d a imm | andImm d a imm =>
    simp only [encodeNat, Instr.readFrom] at hn ⊢
    rw [regField_eq (r := d) (by omega), regField_eq (r := a) (by omega),
      immField_of_residue (imm := imm) (by omega) (of_decide_eq_true h)]
  | notReg d a =>
    simp only [encodeNat, Instr.readFrom] at hn ⊢
    rw [regField_eq (r := d) (by omega), regField_eq (r := a) (by omega)]
  | br l | brn l | brz l | brp l | brnz l | brzp l | brnp l | brnzp l =>
    simp only [encodeNat, Instr.readFrom] at hn ⊢
    rw [labelField_eq (l := l) (by omega)]
  | ld d l | ldi d l | st d l | sti d l =>
    simp only [encodeNat, Instr.readFrom] at hn ⊢
    rw [regField_eq (r := d) (by omega), labelField_eq (l := l) (by omega)]
  | trap v =>
    cases vector_of_wellFormed h
    rfl

/-- The word of a well-formed instruction matches the instruction's row (R58). -/
theorem row_accepts_encode : ∀ i : Instr, Laws.RowBits.Statement i
  | .addReg d a b => Laws.RowBits.addReg d a b
  | .addImm d a imm => Laws.RowBits.addImm d a imm
  | .andReg d a b => Laws.RowBits.andReg d a b
  | .andImm d a imm => Laws.RowBits.andImm d a imm
  | .notReg d a => Laws.RowBits.notReg d a
  | .br l => Laws.RowBits.br l
  | .brn l => Laws.RowBits.brn l
  | .brz l => Laws.RowBits.brz l
  | .brp l => Laws.RowBits.brp l
  | .brnz l => Laws.RowBits.brnz l
  | .brzp l => Laws.RowBits.brzp l
  | .brnp l => Laws.RowBits.brnp l
  | .brnzp l => Laws.RowBits.brnzp l
  | .ld d l => Laws.RowBits.ld d l
  | .ldi d l => Laws.RowBits.ldi d l
  | .st r l => Laws.RowBits.st r l
  | .sti r l => Laws.RowBits.sti r l
  | .trap v => Laws.RowBits.trap v

theorem decode_encode {i : Instr} (h : i.wellFormed = true) : decode (encode i) = .ok i := by
  rw [decode_of_row (row_accepts_encode i h), readFrom_encode h]

theorem row_accepts_of_decode {w : Word} {i : Instr} (h : decode w = .ok i) : i.row.accepts w = true :=
  encode_of_decode h ▸ row_accepts_encode i (wellFormed_of_decode h)

end Sys2Proof

namespace Sys2Proof.Machine

/-- Executing an ill-formed instruction value is the configuration error with the value's argument. -/
theorem exec_of_illFormed {i : Instr} (h : i.wellFormed = false) (s : State) :
    exec i s = .next (raise s .configurationError (.argument i.offender)) := by
  cases i with
  | addImm | andImm | trap => exact if_neg (of_decide_eq_false h)
  | _ => cases h

/-- Settles O10: the word of a well-formed instruction matches the instruction's row, so the decoder reads the
operands back; and a decoded instruction encodes to the number of its word. -/
theorem decodeAndEncodeAreInverse : Obligations.DecodeAndEncodeAreInverse :=
  ⟨fun _ => decode_encode, fun _ _ => encode_of_decode⟩

/-- Settles O8: every row is the row of a form, a word that matches it decodes, and no word matches two. -/
theorem decoderAcceptsTheTableRows : Obligations.DecoderAcceptsTheTableRows := by
  refine ⟨fun w => ⟨fun ⟨i, hi⟩ => ?_, fun ⟨r, ⟨hr, hw⟩, _⟩ => ?_⟩, fun w i hi => ?_⟩
  · exact ⟨i.row, ⟨row_mem_opcodeRows i, row_accepts_of_decode hi⟩,
      fun r ⟨hr, hw⟩ => row_unique hr (row_mem_opcodeRows i) hw (row_accepts_of_decode hi)⟩
  · rw [opcodeRows_eq_rows_of_forms] at hr
    obtain ⟨i, -, rfl⟩ := List.mem_map.mp hr
    exact ⟨i.readFrom w, decode_of_row hw⟩
  · exact ⟨row_mem_opcodeRows i, row_accepts_of_decode hi, wellFormed_of_decode hi⟩

/-- Settles O9: each rejection is given for its class, and for no other word. -/
theorem decoderRejectsTheIllegalClasses : Obligations.DecoderRejectsTheIllegalClasses := by
  intro w
  exact ⟨decode_eq_error_iff w .unusedOpcode, decode_eq_error_iff w .registerFormBits,
    decode_eq_error_iff w .notBits, decode_eq_error_iff w .trapHighBits, decode_eq_error_iff w .trapVector⟩

/-- Settles O31: a decoded instruction is well-formed, and the meanings check the value they are given. -/
theorem illFormedInstructionsNeverExecute : Obligations.IllFormedInstructionsNeverExecute :=
  ⟨fun _ _ => wellFormed_of_decode, fun _ s h => exec_of_illFormed h s⟩

end Sys2Proof.Machine

/-! # Proofs of the arithmetic and logic family (spec/40_arith_logic.md)

ADD, AND and NOT: each form writes one result with `writeResult`, and the words that decode to it are the words
that match its row of the opcode table. -/

namespace Sys2Proof

/-! ## The words of a form, by its row's mask and bits -/

theorem bits_of_decode {w : Word} {i : Instr} (h : decode w = .ok i) : w &&& i.row.mask = i.row.bits :=
  OpcodeRow.accepts_iff.mp (row_accepts_of_decode h)

theorem decode_of_bits (i : Instr) {w : Word} (h : w &&& i.row.mask = i.row.bits) :
    decode w = .ok (i.readFrom w) :=
  decode_of_row (OpcodeRow.accepts_iff.mpr h)

end Sys2Proof

namespace Sys2Proof.Machine

/-! ## The arithmetic of the results -/

/-- The wrapped number is the number up to a multiple of 65536, inside the signed range (R6, R87). -/
theorem s16_wrap16_congr (n : Int) :
    ∃ k : Int, s16 (wrap16 n) = n + 65536 * k ∧ -32768 ≤ s16 (wrap16 n) ∧ s16 (wrap16 n) ≤ 32767 := by
  have hmod : s16 (wrap16 n) % 65536 = n % 65536 := (s16_emod _).trans (u16_wrap16 n)
  exact ⟨(s16 (wrap16 n) - n) / 65536, by omega, s16_range _⟩

theorem wrap16_eq_ofInt (n : Int) : wrap16 n = BitVec.ofInt 16 n := by
  apply BitVec.eq_of_toNat_eq
  simp only [wrap16, BitVec.toNat_ofNat, BitVec.toNat_ofInt]
  omega

/-- The 16-bit pattern of a legal immediate is the sign extension of its 5-bit field (R54, R84). -/
theorem wrap16_eq_signExtend {imm : Int} (h : immLegal imm) :
    wrap16 imm = (BitVec.ofInt 5 imm).signExtend 16 := by
  obtain ⟨hmin, hmax⟩ := h
  simp only [Config.immMin, Config.immMax] at hmin hmax
  have hfield : (BitVec.ofInt 5 imm).toInt = imm :=
    (BitVec.toInt_ofInt imm).trans (Int.bmod_eq_of_le (by omega) (by omega))
  rw [wrap16_eq_ofInt, BitVec.signExtend, hfield]

theorem ones_xor_eq_not (a : Word) : 0xFFFF ^^^ a = ~~~a := BitVec.allOnes_xor

theorem s16_not (a : Word) : s16 (~~~a) = -s16 a - 1 := by
  have hlt := u16_lt a
  have hnot : u16 (~~~a) = 65535 - u16 a := BitVec.toNat_not
  unfold s16
  rw [hnot]
  split <;> split <;> omega

/-! ## What each form does: one result, written to the destination and the flag (R80)

`writeResult` unfolds to the `resultState` of the obligations. -/

theorem readReg_writeResult_self (s : State) (d : Reg) (v : Word) : readReg (writeResult s d v) d = v :=
  (readReg_writeResult s d d v).trans (if_pos rfl)

theorem flag_writeResult_eq_readReg (s : State) (d : Reg) (v : Word) :
    (writeResult s d v).flag = readReg (writeResult s d v) d :=
  (readReg_writeResult_self s d v).symm

theorem exec_addReg (d a b : Reg) (s : State) :
    exec (.addReg d a b) s = .next (writeResult s d (wrap16 (s16 (readReg s a) + s16 (readReg s b)))) := rfl

theorem exec_addImm (d a : Reg) {imm : Int} (h : immLegal imm) (s : State) :
    exec (.addImm d a imm) s = .next (writeResult s d (wrap16 (s16 (readReg s a) + imm))) := if_pos h

theorem exec_andReg (d a b : Reg) (s : State) :
    exec (.andReg d a b) s = .next (writeResult s d (readReg s a &&& readReg s b)) := rfl

theorem exec_andImm (d a : Reg) {imm : Int} (h : immLegal imm) (s : State) :
    exec (.andImm d a imm) s = .next (writeResult s d (readReg s a &&& wrap16 imm)) := if_pos h

theorem exec_notReg (d a : Reg) (s : State) :
    exec (.notReg d a) s = .next (writeResult s d (~~~(readReg s a))) := rfl

/-- Each of the five forms writes one result to its destination and does nothing else (R80). -/
theorem exec_alu {d a b : Reg} {imm : Int} {i : Instr} (himm : immLegal imm)
    (hi : i ∈ [Instr.addReg d a b, .addImm d a imm, .andReg d a b, .andImm d a imm, .notReg d a])
    (s : State) : ∃ v, exec i s = .next (writeResult s d v) := by
  simp only [List.mem_cons, List.not_mem_nil, or_false] at hi
  rcases hi with rfl | rfl | rfl | rfl | rfl
  · exact ⟨_, exec_addReg d a b s⟩
  · exact ⟨_, exec_addImm d a himm s⟩
  · exact ⟨_, exec_andReg d a b s⟩
  · exact ⟨_, exec_andImm d a himm s⟩
  · exact ⟨_, exec_notReg d a s⟩

/-! ## The obligations -/

/-- Settles O12: the words by the form's row (`decode_of_bits`, `bits_of_decode`), `decode_encode`, and the result
that `exec_addReg` gives. -/
theorem addRegisterForm : Obligations.AddRegisterForm := by
  refine ⟨fun w => ⟨fun ⟨_, _, _, h⟩ => bits_of_decode h, fun h => ?_⟩, fun d a b => ⟨?_, exec_addReg d a b⟩⟩
  · exact ⟨_, _, _, decode_of_bits (.addReg 0 0 0) h⟩
  · exact decode_encode (i := .addReg d a b) rfl

/-- Settles O13: as O12, with an immediate that the bounds make legal. -/
theorem addImmediateForm : Obligations.AddImmediateForm := by
  refine ⟨fun w => ⟨fun ⟨_, _, _, h⟩ => bits_of_decode h, fun h => ?_⟩, fun d a imm hmin hmax => ?_⟩
  · exact ⟨_, _, _, decode_of_bits (.addImm 0 0 0) h⟩
  · have himm : immLegal imm := ⟨hmin, hmax⟩
    exact ⟨decode_encode (i := .addImm d a imm) (decide_eq_true himm), exec_addImm d a himm⟩

/-- Settles O14: as O12, with the result that `exec_andReg` gives. -/
theorem andRegisterForm : Obligations.AndRegisterForm := by
  refine ⟨fun w => ⟨fun ⟨_, _, _, h⟩ => bits_of_decode h, fun h => ?_⟩, fun d a b => ⟨?_, exec_andReg d a b⟩⟩
  · exact ⟨_, _, _, decode_of_bits (.andReg 0 0 0) h⟩
  · exact decode_encode (i := .andReg d a b) rfl

/-- Settles O15: as O13, and a legal immediate fits its 5-bit field. -/
theorem andImmediateForm : Obligations.AndImmediateForm := by
  refine ⟨fun w => ⟨fun ⟨_, _, _, h⟩ => bits_of_decode h, fun h => ?_⟩, fun d a imm hmin hmax => ?_⟩
  · exact ⟨_, _, _, decode_of_bits (.andImm 0 0 0) h⟩
  · have himm : immLegal imm := ⟨hmin, hmax⟩
    exact ⟨decode_encode (i := .andImm d a imm) (decide_eq_true himm), wrap16_eq_signExtend himm,
      exec_andImm d a himm⟩

/-- Settles O16: the exclusive or with all ones is the complement, which mirrors the signed view. -/
theorem notComplements : Obligations.NotComplements := by
  refine ⟨fun w => ⟨fun ⟨_, _, h⟩ => bits_of_decode h, fun h => ?_⟩, fun d a => ⟨?_, fun s => ?_⟩⟩
  · exact ⟨_, _, decode_of_bits (.notReg 0 0) h⟩
  · exact decode_encode (i := .notReg d a) rfl
  · rw [ones_xor_eq_not]
    exact ⟨exec_notReg d a s, s16_not (readReg s a)⟩

/-- Settles O17: each form's result is in the destination and the flag; the sums by `s16_wrap16_congr`, AND and
NOT bit by bit. -/
theorem aluMeetsTheSourceProperties : Obligations.AluMeetsTheSourceProperties := by
  intro d a b imm s himm
  refine ⟨⟨_, exec_addReg d a b s, flag_writeResult_eq_readReg _ _ _, ?_⟩,
    ⟨_, exec_addImm d a himm s, flag_writeResult_eq_readReg _ _ _, ?_⟩,
    ⟨_, exec_andReg d a b s, flag_writeResult_eq_readReg _ _ _, fun k => ?_⟩,
    ⟨_, exec_andImm d a himm s, flag_writeResult_eq_readReg _ _ _, fun k => ?_⟩,
    ⟨_, exec_notReg d a s, flag_writeResult_eq_readReg _ _ _, fun k hk => ?_⟩⟩ <;>
    rw [readReg_writeResult_self]
  · exact s16_wrap16_congr (s16 (readReg s a) + s16 (readReg s b))
  · exact s16_wrap16_congr (s16 (readReg s a) + imm)
  · exact BitVec.getLsbD_and
  · rw [wrap16_eq_ofInt, BitVec.getLsbD_and]
  · simp only [BitVec.getLsbD_not, hk, decide_true, Bool.true_and]

/-- Settles O18: the next state is `writeResult` of the one result (`exec_alu`), whose other fields are the old
ones. -/
theorem aluFrame : Obligations.AluFrame := by
  intro d a b imm i s t himm hi h
  obtain ⟨v, hv⟩ := exec_alu himm hi s
  cases hv.symm.trans h
  exact ⟨fun r hr => (readReg_writeResult s d r v).trans (if_neg hr), flag_writeResult_eq_readReg s d v,
    memRead_of_mem rfl, symResolve_of_sym rfl, rfl, rfl, rfl⟩

/-- Settles O11: the nineteen words, each decoded by evaluation. -/
theorem exampleWordsDecode : Obligations.ExampleWordsDecode := by
  unfold Obligations.ExampleWordsDecode
  decide

end Sys2Proof.Machine

/-! # Proofs of the branch family (spec/41_branch.md)

The eight forms of BR are `Branch(condition, label)` for the eight condition sets (R66): what is said of a form is
proved once, for every set. -/

namespace Sys2Proof

/-! ## The form of a condition set -/

/-- `Branch(c, l)` of the abstract variant (R50): the form of BR with the condition set `c`. -/
def Cond.instr (c : Cond) (l : Label) : Instr :=
  match c with
  | ⟨false, false, false⟩ => .br l
  | ⟨true, false, false⟩ => .brn l
  | ⟨false, true, false⟩ => .brz l
  | ⟨false, false, true⟩ => .brp l
  | ⟨true, true, false⟩ => .brnz l
  | ⟨false, true, true⟩ => .brzp l
  | ⟨true, false, true⟩ => .brnp l
  | ⟨true, true, true⟩ => .brnzp l

/-- The condition in bits 11, 10 and 9 of a branch word (R57, R66). -/
def Cond.bits (c : Cond) : Nat := 2048 * c.n.toNat + 1024 * c.z.toNat + 512 * c.p.toNat

/-- The row of the matrix of R100: whether the form jumps on a negative, a zero and a positive flag; with the
empty set it always does (R90). -/
def Cond.matrixRow (c : Cond) : List Bool :=
  if c = ⟨false, false, false⟩ then [true, true, true] else [c.n, c.z, c.p]

/-- The eight condition sets, in the order of the forms in R92 to R99. -/
def Cond.all : List Cond :=
  [⟨false, false, false⟩, ⟨true, false, false⟩, ⟨false, true, false⟩, ⟨false, false, true⟩,
   ⟨true, true, false⟩, ⟨false, true, true⟩, ⟨true, false, true⟩, ⟨true, true, true⟩]

theorem branchesOn_eq_map (l : Label) : branchesOn l = Cond.all.map (Cond.instr · l) := rfl

theorem Cond.eq_instr_of_mem_branchesOn {i : Instr} {l : Label} (h : i ∈ branchesOn l) :
    ∃ c : Cond, i = c.instr l := by
  rw [branchesOn_eq_map] at h
  obtain ⟨c, -, rfl⟩ := List.mem_map.mp h
  exact ⟨c, rfl⟩

theorem Cond.instr_wellFormed (c : Cond) (l : Label) : (c.instr l).wellFormed = true := by
  obtain ⟨_ | _, _ | _, _ | _⟩ := c <;> rfl

theorem Cond.instr_labelOperand (c : Cond) (l : Label) : (c.instr l).labelOperand = some l := by
  obtain ⟨_ | _, _ | _, _ | _⟩ := c <;> rfl

theorem Cond.instr_row (c : Cond) (l : Label) : (c.instr l).row = ⟨0xFE00, BitVec.ofNat 16 c.bits⟩ := by
  obtain ⟨_ | _, _ | _, _ | _⟩ := c <;> rfl

theorem Cond.instr_readFrom (c : Cond) (l : Label) (w : Word) :
    (c.instr l).readFrom w = c.instr (labelField w) := by
  obtain ⟨_ | _, _ | _, _ | _⟩ := c <;> rfl

theorem Cond.encodeNat_instr (c : Cond) (l : Label) : encodeNat (c.instr l) = c.bits + l.val := by
  obtain ⟨_ | _, _ | _, _ | _⟩ := c <;> simp [Cond.instr, Cond.bits, encodeNat]

/-! ## The words of a form -/

theorem Cond.decode_bits_add_label (c : Cond) (l : Label) :
    decode (BitVec.ofNat 16 (c.bits + l.val)) = .ok (c.instr l) := by
  rw [← c.encodeNat_instr l]
  exact decode_encode (c.instr_wellFormed l)

theorem Cond.decode_eq_instr_iff (c : Cond) (w : Word) :
    (∃ l, decode w = .ok (c.instr l)) ↔ w &&& 0xFE00 = BitVec.ofNat 16 c.bits := by
  constructor
  · rintro ⟨l, h⟩
    have hw := bits_of_decode h
    rwa [c.instr_row l] at hw
  · intro h
    have hd := decode_of_bits (c.instr 0) (w := w) (by rwa [c.instr_row 0])
    exact ⟨labelField w, c.instr_readFrom 0 w ▸ hd⟩

end Sys2Proof

namespace Sys2Proof.Machine

/-! ## What a form does -/

theorem exec_instr (c : Cond) (l : Label) (s : State) : exec (c.instr l) s = branch c l s := by
  obtain ⟨_ | _, _ | _, _ | _⟩ := c <;> rfl

/-- On a bound label a branch writes `pc` and nothing else (R91). -/
theorem exec_instr_bound {c : Cond} {l : Label} {s : State} {a : Word} (h : symResolve s l = some a) :
    exec (c.instr l) s = .next (setPc s (if take c s.flag then s16 a else s.pc + 1)) := by
  rw [exec_instr, branch_bound h, apply_ite (setPc s)]
  rfl

theorem exec_instr_unbound {c : Cond} {l : Label} {s : State} (h : symResolve s l = none) :
    exec (c.instr l) s = .next (raise s .unboundLabel (.label l)) :=
  exec_unbound (c.instr_labelOperand l) h

/-- The rules of a form, from the reading of its condition as a condition on the sign of FLAG. -/
theorem branchForm_instr (c : Cond) {jumps : Int → Prop}
    (hjumps : ∀ f : Word, take c f = true ↔ jumps (s16 f)) : BranchForm c.instr c.bits jumps := by
  refine ⟨c.decode_bits_add_label, c.decode_eq_instr_iff,
    fun l s => ⟨fun t ht hj => ?_, fun t ht hj => ?_, ?_⟩⟩
  · rw [exec_instr_bound ht, if_pos ((hjumps s.flag).mpr hj)]
    rfl
  · rw [exec_instr_bound ht, if_neg (mt (hjumps s.flag).mp hj)]
    rfl
  · exact exec_instr_unbound

/-- A cell of the matrix says whether the branch is taken on a flag of the cell's sign (R90, R100). -/
theorem take_iff_matrixRow (c : Cond) (f : Word) {column : Nat × Prop}
    (hcolumn : column ∈ [(0, s16 f < 0), (1, s16 f = 0), (2, 0 < s16 f)]) (hsign : column.2) :
    take c f = true ↔ c.matrixRow[column.1]? = some true := by
  simp only [List.mem_cons, List.not_mem_nil, or_false] at hcolumn
  rw [take_iff, Cond.matrixRow]
  rcases hcolumn with rfl | rfl | rfl
  · have hn : s16 f < 0 := hsign
    split_ifs with hc <;> simp [hc, hn, hn.ne, hn.not_gt]
  · have hz : s16 f = 0 := hsign
    split_ifs with hc <;> simp [hc, hz]
  · have hp : 0 < s16 f := hsign
    split_ifs with hc <;> simp [hc, hp, hp.ne', hp.not_gt]

/-- While the engine goes on, only a branch on a bound label leaves the next index (R101). -/
theorem Effect.pc_of_running {i : Instr} {s t : State} (h : Effect i s t) (hr : t.run = .running) :
    t.pc = s.pc + 1 ∨ ∃ l a, i ∈ branchesOn l ∧ symResolve s l = some a ∧ t.pc = s16 a := by
  cases h with
  | jump l a hi ha => exact .inr ⟨l, a, hi, ha, rfl⟩
  | result | fallThrough | symStore | memStore => exact .inl rfl
  | halted | unbound | badAddress | illFormed => cases hr

/-! ## The obligations -/

/-- Settles O19: the rules of a form hold for every condition set (`branchForm_instr`), and `take_iff` reads each
set as the form's condition on the sign of FLAG. -/
theorem branchFormsJumpByTheFlagSign : Obligations.BranchFormsJumpByTheFlagSign :=
  ⟨branchForm_instr ⟨false, false, false⟩ fun f => by simp [take_iff],
    branchForm_instr ⟨true, false, false⟩ fun f => by simp [take_iff],
    branchForm_instr ⟨false, true, false⟩ fun f => by simp [take_iff],
    branchForm_instr ⟨false, false, true⟩ fun f => by simp [take_iff],
    branchForm_instr ⟨true, true, false⟩ fun f => by simp [take_iff, le_iff_lt_or_eq],
    branchForm_instr ⟨false, true, true⟩ fun f => by simp [take_iff, le_iff_eq_or_lt, @eq_comm Int 0],
    branchForm_instr ⟨true, false, true⟩ fun f => by simp [take_iff],
    branchForm_instr ⟨true, true, true⟩ fun f => by simp [take_iff, lt_trichotomy]⟩

/-- Settles O20: the rows are the matrix rows of the condition sets, and `take` follows them
(`take_iff_matrixRow`). -/
theorem branchConditionMatrix : Obligations.BranchConditionMatrix := by
  intro l s v hv row hrow column hcolumn hsign
  change row ∈ Cond.all.map (fun c => (c.instr l, c.matrixRow)) at hrow
  obtain ⟨c, -, rfl⟩ := List.mem_map.mp hrow
  exact ⟨_, exec_instr_bound hv, if_congr (take_iff_matrixRow c s.flag hcolumn hsign) rfl rfl⟩

/-- Settles O21: a branch writes `pc` alone on a bound label (`exec_instr_bound`), and RUN and the fault record
alone on an unbound one. -/
theorem branchFrame : Obligations.BranchFrame := by
  intro l i s t hi h
  obtain ⟨c, rfl⟩ := Cond.eq_instr_of_mem_branchesOn hi
  cases hl : symResolve s l with
  | some a =>
    cases (exec_instr_bound hl).symm.trans h
    exact ⟨readReg_of_regs rfl, rfl, memRead_of_mem rfl, symResolve_of_sym rfl, rfl,
      fun _ => ⟨rfl, rfl⟩, nofun⟩
  | none =>
    cases (exec_instr_unbound hl).symm.trans h
    exact ⟨readReg_of_regs rfl, rfl, memRead_of_mem rfl, symResolve_of_sym rfl, rfl,
      fun hb => absurd rfl hb, fun _ => rfl⟩

/-- Settles O39: the step executed a fetched instruction, whose effect sets `pc` as `Effect.pc_of_running` says;
a fetch or decode fault does not leave the engine running. -/
theorem onlyBranchesLeaveTheSequence : Obligations.OnlyBranchesLeaveTheSequence := by
  intro s t h hr
  obtain ⟨-, ⟨w, i, hw, hd, he⟩ | ⟨-, rfl⟩ | ⟨w, r, -, -, rfl⟩⟩ := step_next_cases h
  · rcases he.pc_of_running hr with hpc | ⟨l, a, hi, ha, hpc⟩
    · exact .inl hpc
    · exact .inr ⟨i, l, a, ⟨w, hw, hd⟩, hi, ha, hpc⟩
  · cases hr
  · cases hr

end Sys2Proof.Machine

/-! # Proofs of the load and store family (spec/42_load_store.md)

LD and ST use the value of their label, LDI and STI the cell at that value: what each does on a bound label is
said once; on an unbound one `exec_unbound` says it. `writeResult` and `raise` unfold to the `resultState` and
`faultedState` of the obligations. -/

namespace Sys2Proof.Machine

/-! ## The label used as an address -/

theorem effAddr_of_nonneg {a : Word} (h : 0 ≤ s16 a) : effAddr a = some (s16 a).toNat := if_pos h

theorem labelIndirect_negative {s : State} {l : Label} {a : Word} (ha : symResolve s l = some a)
    (hneg : s16 a < 0) (k : Nat → Host.Outcome State Fault Refusal) :
    labelIndirect s l k = .next (raise s .badAddress (.value a)) :=
  (withLabel_bound ha _).trans (withAddress_none (effAddr_eq_none.mpr hneg) k)

/-- A label-indirect operand goes on with the effective address of its label, or faults if there is none
(R36, R109). -/
theorem labelIndirect_bind_cases (s : State) (l : Label) (k : Nat → Host.Outcome State Fault Refusal) :
    (∃ n, (symResolve s l).bind effAddr = some n ∧ labelIndirect s l k = k n) ∨
      ((symResolve s l).bind effAddr = none ∧
        ∃ kind info, labelIndirect s l k = .next (raise s kind info)) := by
  rcases labelIndirect_cases s l k with ⟨a, n, ha, hn, h⟩ | ⟨a, ha, hneg, h⟩ | ⟨hl, h⟩
  · exact .inl ⟨n, by rw [ha, Option.bind_some, hn], h⟩
  · exact .inr ⟨by rw [ha, Option.bind_some, effAddr_eq_none.mpr hneg], _, _, h⟩
  · exact .inr ⟨by rw [hl, Option.bind_none], _, _, h⟩

/-! ## What each instruction does -/

theorem exec_ld_bound {s : State} {l : Label} {v : Word} (h : symResolve s l = some v) (d : Reg) :
    exec (.ld d l) s = .next (writeResult s d v) :=
  withLabel_bound h _

theorem exec_st_bound {s : State} {l : Label} {a : Word} (h : symResolve s l = some a) (r : Reg) :
    exec (.st r l) s = .next (advance (symBind s l.val (readReg s r))) :=
  (execSt_eq_withLabel r l s).trans (withLabel_bound h _)

theorem exec_ldi_nonneg {s : State} {l : Label} {a : Word} (h : symResolve s l = some a)
    (hpos : 0 ≤ s16 a) (d : Reg) :
    exec (.ldi d l) s = .next (writeResult s d (memRead s (s16 a).toNat)) :=
  labelIndirect_address h (effAddr_of_nonneg hpos) _

theorem exec_sti_nonneg {s : State} {l : Label} {a : Word} (h : symResolve s l = some a)
    (hpos : 0 ≤ s16 a) (r : Reg) :
    exec (.sti r l) s = .next (advance (memWrite s (s16 a).toNat (readReg s r))) :=
  labelIndirect_address h (effAddr_of_nonneg hpos) _

/-- LD and LDI write one result to the destination, or fault (R105, R106). -/
theorem exec_load {d : Reg} {l : Label} {i : Instr} (hi : i ∈ [Instr.ld d l, .ldi d l]) (s : State) :
    (∃ v, exec i s = .next (writeResult s d v)) ∨
      ∃ kind info, exec i s = .next (raise s kind info) := by
  simp only [List.mem_cons, List.not_mem_nil, or_false] at hi
  rcases hi with rfl | rfl
  · rcases withLabel_cases s l (fun v => .next (writeResult s d v)) with ⟨v, -, h⟩ | ⟨-, h⟩
    · exact .inl ⟨v, h⟩
    · exact .inr ⟨_, _, h⟩
  · rcases labelIndirect_bind_cases s l (fun n => .next (writeResult s d (memRead s n))) with
      ⟨n, -, h⟩ | ⟨-, h⟩
    · exact .inl ⟨_, h⟩
    · exact .inr h

/-! ## Binding a label and using it -/

theorem symResolve_symBind_self (s : State) (l : Label) (v : Word) :
    symResolve (symBind s l.val v) l = some v :=
  (symResolve_symBind s l.val l v).trans (if_pos rfl)

theorem hostBind_loading {s : State} (hr : s.run = .loading) (l : Label) (v : Word) :
    hostBind s l.val v = (.done, symBind s l.val v) :=
  if_pos ⟨hr, Int.natCast_nonneg l.val, Int.ofNat_lt.mpr l.isLt⟩

/-! ## The obligations -/

/-- Settles O22: the words by the form's row (`decode_of_bits`, `bits_of_decode`), `decode_encode`, and the
result that `exec_ld_bound` gives. -/
theorem loadTakesTheLabelValue : Obligations.LoadTakesTheLabelValue := by
  refine ⟨fun w => ⟨fun ⟨_, _, h⟩ => bits_of_decode h, fun h => ?_⟩, fun d l => ⟨?_, fun s => ⟨?_, ?_⟩⟩⟩
  · exact ⟨_, _, decode_of_bits (.ld 0 0) h⟩
  · exact decode_encode (i := .ld d l) rfl
  · exact fun v hv => exec_ld_bound hv d
  · exact exec_unbound rfl

/-- Settles O23: the words as in O22; the label's value is the address of the one cell read, or the offender. -/
theorem loadIndirectTakesTheCell : Obligations.LoadIndirectTakesTheCell := by
  refine ⟨fun w => ⟨fun ⟨_, _, h⟩ => bits_of_decode h, fun h => ?_⟩, fun d l => ⟨?_, fun s => ⟨?_, ?_, ?_⟩⟩⟩
  · exact ⟨_, _, decode_of_bits (.ldi 0 0) h⟩
  · exact decode_encode (i := .ldi d l) rfl
  · exact fun a ha hpos => exec_ldi_nonneg ha hpos d
  · exact fun a ha hneg => labelIndirect_negative ha hneg _
  · exact exec_unbound rfl

/-- Settles O24: the words as in O22; ST rebinds its label, and `symResolve_symBind` says how every label
resolves then. -/
theorem storeWritesTheLabelValue : Obligations.StoreWritesTheLabelValue := by
  refine ⟨fun w => ⟨fun ⟨_, _, h⟩ => bits_of_decode h, fun h => ?_⟩, fun r l => ⟨?_, fun s => ⟨?_, ?_⟩⟩⟩
  · exact ⟨_, _, decode_of_bits (.st 0 0) h⟩
  · exact decode_encode (i := .st r l) rfl
  · intro a ha
    refine ⟨_, exec_st_bound ha r, fun k => ?_⟩
    simp only [Fin.ext_iff]
    exact symResolve_symBind s l.val k (readReg s r)
  · exact exec_unbound rfl

/-- Settles O25: the words as in O22; STI writes one cell, and `memRead_memWrite` says what every cell reads
then. -/
theorem storeIndirectWritesTheCell : Obligations.StoreIndirectWritesTheCell := by
  refine ⟨fun w => ⟨fun ⟨_, _, h⟩ => bits_of_decode h, fun h => ?_⟩, fun r l => ⟨?_, fun s => ⟨?_, ?_, ?_⟩⟩⟩
  · exact ⟨_, _, decode_of_bits (.sti 0 0) h⟩
  · exact decode_encode (i := .sti r l) rfl
  · exact fun a ha hpos => ⟨_, exec_sti_nonneg ha hpos r,
      fun x => memRead_memWrite s (s16 a).toNat x (readReg s r)⟩
  · exact fun a ha hneg => labelIndirect_negative ha hneg _
  · exact exec_unbound rfl

/-- Settles O26: the next state is `writeResult` of the loaded value or a fault entry (`exec_load`). -/
theorem loadFrame : Obligations.LoadFrame := by
  intro d l i s t hi h
  rcases exec_load hi s with ⟨v, hv⟩ | ⟨kind, info, hf⟩
  · cases hv.symm.trans h
    exact ⟨fun r hr => (readReg_writeResult s d r v).trans (if_neg hr), memRead_of_mem rfl,
      symResolve_of_sym rfl, rfl, .inl ⟨rfl, rfl, flag_writeResult_eq_readReg s d v⟩⟩
  · cases hf.symm.trans h
    exact ⟨fun r _ => readReg_of_regs rfl r, memRead_of_mem rfl, symResolve_of_sym rfl, rfl,
      .inr ⟨rfl, rfl, rfl, readReg_of_regs rfl d, rfl⟩⟩

/-- Settles O27: a bound label is rebound, which changes no other entry and binds none
(`isBound_symBind_of_bound`); an unbound one gives a fault entry. -/
theorem storeFrame : Obligations.StoreFrame := by
  intro r l s t h
  cases hl : symResolve s l with
  | some a =>
    cases (exec_st_bound hl r).symm.trans h
    exact ⟨readReg_of_regs rfl, rfl, memRead_of_mem rfl,
      fun k hk => (symResolve_symBind s l.val k (readReg s r)).trans (if_neg (Fin.val_ne_of_ne hk)),
      isBound_symBind_of_bound hl (readReg s r), rfl, fun _ => ⟨rfl, rfl⟩, nofun⟩
  | none =>
    cases (exec_unbound (i := .st r l) rfl hl).symm.trans h
    exact ⟨readReg_of_regs rfl, rfl, memRead_of_mem rfl, fun k _ => symResolve_of_sym rfl k,
      isBound_of_sym rfl, rfl, fun hb => absurd rfl hb, fun _ => rfl⟩

/-- Settles O28: with an effective address STI writes that cell alone, without one it is a fault entry
(`labelIndirect_bind_cases`). -/
theorem storeIndirectFrame : Obligations.StoreIndirectFrame := by
  intro r l s t h
  rcases labelIndirect_bind_cases s l (fun n => .next (advance (memWrite s n (readReg s r)))) with
    ⟨n, hn, hx⟩ | ⟨hnone, kind, info, hx⟩
  · cases hx.symm.trans h
    refine ⟨readReg_of_regs rfl, rfl, symResolve_of_sym rfl, rfl, fun v a hv ha => ?_,
      fun hnone => absurd (hn.symm.trans hnone) nofun⟩
    rw [hv, Option.bind_some, ha] at hn
    cases hn
    exact ⟨fun x hx => (memRead_memWrite s n x (readReg s r)).trans (if_neg hx), rfl, rfl⟩
  · cases hx.symm.trans h
    refine ⟨readReg_of_regs rfl, rfl, symResolve_of_sym rfl, rfl, fun v a hv ha => ?_,
      fun _ => ⟨memRead_of_mem rfl, rfl⟩⟩
    rw [hv, Option.bind_some, ha] at hnone
    cases hnone

/-- Settles O34: either binding makes the label resolve to its value, which LD loads and BR jumps to; an index
up to 32767 is its own signed value. -/
theorem labelsServeAsIndexAndAsData : Obligations.LabelsServeAsIndexAndAsData := by
  intro s l d v hr
  simp only [hostStep, hostBind_loading hr]
  refine ⟨fun hlen => ⟨_, exec_ld_bound (symResolve_symBind_self _ _ _) d, ?_⟩,
    _, branch_bound (symResolve_symBind_self _ _ _), rfl⟩
  rw [readReg_writeResult_self]
  exact s16_wrap16 (by omega) (by omega)

end Sys2Proof.Machine

/-! # Proofs of the trap family (spec/43_trap.md)

TRAP x25 is the one instruction that writes RUN alone: what it does is said once (`exec_trap_halt`), and no other
effect on a running engine leaves it in Halted (`Effect.halt_of_halted`). -/

namespace Sys2Proof.Machine

/-! ## The halt and the halted machine -/

theorem exec_trap_halt (s : State) : exec (.trap 0x25) s = .next (halt s) := rfl

/-- Halted is terminal (R115, R17). -/
theorem step_of_halted {s : State} (h : s.run = .halted) : step s = .fault .halted :=
  step_of_whyStopped (by simp only [whyStopped, h])

/-- The results, the branches and the stores keep RUN, a fault entry sets it to Faulted: only the effect of TRAP
x25 takes a running engine to Halted (R115, R128). -/
theorem Effect.halt_of_halted {i : Instr} {s t : State} (he : Effect i s t) (hs : s.run = .running)
    (ht : t.run = .halted) : i = .trap Config.haltVector ∧ t = halt s := by
  cases he with
  | halted hi => exact ⟨hi, rfl⟩
  | result | jump | fallThrough | symStore | memStore =>
    have hkept : s.run = .halted := ht
    cases hs.symm.trans hkept
  | unbound | badAddress | illFormed => cases ht

/-! ## The obligations -/

/-- Settles O29: the one word by `word_of_decode_trap`, the next state by `exec_trap_halt`, and no step after it
by `step_of_halted`. -/
theorem trapHalts : Obligations.TrapHalts := by
  have hword : decode 0xF025 = .ok (.trap 0x25) := decode_encode (i := .trap 0x25) rfl
  refine ⟨fun w => ⟨fun ⟨_, h⟩ => word_of_decode_trap h, ?_⟩, hword,
    fun s => ⟨exec_trap_halt s, step_of_halted⟩⟩
  rintro rfl
  exact ⟨_, hword⟩

/-- Settles O38: the step executed a fetched instruction whose effect is the halt (`Effect.halt_of_halted`), and
that instruction has one word; a fetch or decode fault leaves the engine in Faulted. -/
theorem onlyTheTrapHalts : Obligations.OnlyTheTrapHalts := by
  intro s t h ht
  obtain ⟨hs, ⟨w, i, hw, hd, he⟩ | ⟨-, rfl⟩ | ⟨w, r, -, -, rfl⟩⟩ := step_next_cases h
  · obtain ⟨rfl, rfl⟩ := he.halt_of_halted hs ht
    cases word_of_decode_trap hd
    exact ⟨hw, rfl⟩
  · cases ht
  · cases ht

/-- Settles O30: the next state is `halt s`, which keeps every field but RUN. -/
theorem trapFrame : Obligations.TrapFrame := by
  intro s t h
  cases (exec_trap_halt s).symm.trans h
  exact ⟨readReg_of_regs rfl, rfl, memRead_of_mem rfl, symResolve_of_sym rfl, rfl, rfl, rfl⟩

end Sys2Proof.Machine

/-! # Proofs of the exceptions family (spec/60_exceptions.md)

A fault of the engine comes from one of the checks of R125, in their order, and a fault of the load phase from a
refused operation of the host. What a host operation can leave is said once (`HostEffect`, `hostStep_effect`), as
`Effect` says it of an instruction, so the invariant holds of every reachable state; a legal store then keeps the
engine from the decode fault. -/

namespace Sys2Proof

theorem wordLegal_iff {w : Word} : wordLegal w = true ↔ ∃ i, decode w = .ok i := by
  unfold wordLegal
  cases decode w <;> simp

end Sys2Proof

namespace Sys2Proof.Machine

/-! ## Which fault the effect of an instruction enters -/

/-- A legal instruction that leaves a running engine in Faulted failed one of two checks: its label is unbound,
or the label it uses as an address holds a negative value (R125 items 3 and 4). -/
theorem Effect.fault_of_faulted {i : Instr} {s t : State} (he : Effect i s t) (hs : s.run = .running)
    (hi : i.wellFormed = true) (ht : t.run = .faulted) :
    (∃ l, i.labelOperand = some l ∧ symResolve s l = none ∧ t = raise s .unboundLabel (.label l)) ∨
      ∃ l a, i.usesAddress = true ∧ i.labelOperand = some l ∧ symResolve s l = some a ∧ s16 a < 0 ∧
        t = raise s .badAddress (.value a) := by
  cases he with
  | unbound l hl hn => exact .inl ⟨l, hl, hn, rfl⟩
  | badAddress l a hu hl ha hneg => exact .inr ⟨l, a, hu, hl, ha, hneg, rfl⟩
  | illFormed h => cases hi.symm.trans h
  | result | jump | fallThrough | symStore | memStore =>
    have hkept : s.run = .faulted := ht
    cases hs.symm.trans hkept
  | halted => cases ht

/-- Of the effects of a legal instruction none writes a ConfigurationError (R121). -/
theorem Effect.not_configurationError {i : Instr} {s t : State} (he : Effect i s t)
    (hi : i.wellFormed = true) (hs : s.fault.kind ≠ .configurationError) :
    t.fault.kind ≠ .configurationError := by
  cases he with
  | unbound | badAddress => exact nofun
  | illFormed h => cases hi.symm.trans h
  | result | jump | fallThrough | symStore | memStore | halted => exact hs

/-! ## What an operation of the host can do -/

/-- What the operation `op` of the host can leave of `s`, with the condition under which it does (R121, R150 to
R153, R162). -/
inductive HostEffect (op : HostOp) (s : State) : State → Prop where
  /-- An inspection, or a refusal outside Loading. -/
  | unchanged : HostEffect op s s
  /-- A fresh machine. -/
  | reset (f : Word) (hop : op = .reset f) (hr : s.run ≠ .running) : HostEffect op s (State.resetWith f)
  /-- A legal word at the end of a store with room. -/
  | append (w : Word) (hop : (∃ w, op = .appendWord w) ∨ ∃ i, op = .appendInstr i)
      (hr : s.run = .loading) (hw : wordLegal w = true) (hroom : progLen s < Config.progMax) :
      HostEffect op s { s with prog := s.prog ++ [w] }
  /-- A binding of either kind. -/
  | bind (l : Int) (v : Word) (hr : s.run = .loading) (hl : labelLegal l) :
      HostEffect op s (symBind s l.toNat v)
  /-- A seeded cell. -/
  | seed (a : Int) (v : Word) (hr : s.run = .loading) (ha : addressLegal a) :
      HostEffect op s (memWrite s a.toNat v)
  /-- The start of the engine. -/
  | start (hr : s.run = .loading) : HostEffect op s (setRun (setPc s 0) .running)
  /-- A refusal in Loading. -/
  | refused (info : FaultInfo) (hr : s.run = .loading) :
      HostEffect op s (raiseAt s .configurationError (progLen s) info)

theorem hostRefuse_loading {s : State} (hr : s.run = .loading) (info : FaultInfo) :
    hostRefuse s info = (.refused, refusedLoad s info) :=
  congrArg (Prod.mk HostReply.refused) (if_pos hr)

theorem hostRefuse_effect (op : HostOp) (s : State) (info : FaultInfo) :
    HostEffect op s (hostRefuse s info).2 := by
  unfold hostRefuse
  split
  case isTrue hr => exact .refused info hr
  case isFalse => exact .unchanged

theorem hostAppendWord_effect {op : HostOp} (hop : (∃ w, op = .appendWord w) ∨ ∃ i, op = .appendInstr i)
    (s : State) (w : Word) : HostEffect op s (hostAppendWord s w).2 := by
  unfold hostAppendWord
  split
  case isTrue h =>
    obtain ⟨hr, hw, hroom⟩ := h
    exact .append w hop hr hw hroom
  case isFalse => exact hostRefuse_effect op s _

theorem hostBind_effect (op : HostOp) (s : State) (l : Int) (v : Word) :
    HostEffect op s (hostBind s l v).2 := by
  unfold hostBind
  split
  case isTrue h => exact .bind l v h.1 h.2
  case isFalse => exact hostRefuse_effect op s _

/-- Every operation of the host, in every state, leaves what `HostEffect` says. -/
theorem hostStep_effect (op : HostOp) (s : State) : HostEffect op s (hostStep op s).2 := by
  cases op with
  | reset f =>
    simp only [hostStep, hostReset]
    split
    case isTrue => exact .unchanged
    case isFalse hr => exact .reset f rfl hr
  | appendWord w => exact hostAppendWord_effect (.inl ⟨w, rfl⟩) s w
  | appendInstr i =>
    simp only [hostStep, hostAppendInstr]
    split
    case isTrue => exact hostAppendWord_effect (.inr ⟨i, rfl⟩) s (encode i)
    case isFalse => exact hostRefuse_effect _ s _
  | bindPositionLabel l => exact hostBind_effect _ s l _
  | bindConstantLabel l v => exact hostBind_effect _ s l v
  | setMemory a v =>
    simp only [hostStep, hostSetMemory]
    split
    case isTrue h => exact .seed a v h.1 h.2
    case isFalse => exact hostRefuse_effect _ s _
  | getMemory a =>
    simp only [hostStep, hostGetMemory]
    split
    case isTrue => exact .unchanged
    case isFalse => exact hostRefuse_effect _ s _
  | beginExecution =>
    simp only [hostStep, hostBegin]
    split
    case isTrue hr => exact .start hr
    case isFalse => exact .unchanged
  | readRegister | readRun | readPc | readFault => exact .unchanged

/-! ## The invariant over the host's operations -/

/-- Fault entry with any index keeps the invariant (R121, R126). -/
theorem State.Inv.raiseAt {s : State} (hi : s.Inv) {kind : FaultKind} (hk : kind ≠ .none) (index : Int)
    (info : FaultInfo) : (raiseAt s kind index info).Inv :=
  { hi with
    faultedIffRecorded := iff_of_true rfl hk
    unrecordedIsClear := fun h => absurd h hk
    loadingIsFresh := nofun
    haltedAtTrap := nofun }

/-- A legal word appended in Loading to a store with room keeps the invariant (R151, R59). -/
theorem State.Inv.append {s : State} (hi : s.Inv) (hr : s.run = .loading) {w : Word}
    (hw : wordLegal w = true) (hroom : progLen s < Config.progMax) :
    State.Inv { s with prog := s.prog ++ [w] } :=
  { hi with
    progFits := by rw [List.length_append]; exact hroom
    progLegal := List.forall_mem_append.mpr ⟨hi.progLegal, List.forall_mem_singleton.mpr hw⟩
    haltedAtTrap := fun h => nomatch hr.symm.trans h }

/-- The start of the engine keeps the invariant (R153). -/
theorem State.Inv.start {s : State} (hi : s.Inv) (hr : s.run = .loading) :
    (setRun (setPc s 0) .running).Inv :=
  { hi with
    pcRange := by rw [setRun_pc, setPc_pc]; decide
    faultedIffRecorded := by
      rw [setRun_fault, setPc_fault, ← hi.faultedIffRecorded, hr, setRun_run]
      decide
    loadingIsFresh := nofun
    haltedAtTrap := nofun }

theorem HostEffect.keeps_inv {op : HostOp} {s t : State} (he : HostEffect op s t) (hi : s.Inv) :
    t.Inv := by
  cases he with
  | unchanged => exact hi
  | reset f => exact inv_resetWith f
  | append w _ hr hw hroom => exact hi.append hr hw hroom
  | bind l v _ hl =>
    have hl' : l.toNat < Config.numLabels := (Int.toNat_lt hl.1).mpr hl.2
    exact { hi with symWf := symTable_wf_insert v hi.symWf hl' }
  | seed a v _ ha =>
    have ha' : a.toNat < Config.memCells := (Int.toNat_lt ha.1).mpr ha.2
    exact { hi with memWf := memory_wf_write v hi.memWf ha' }
  | start hr => exact hi.start hr
  | refused info => exact hi.raiseAt (by decide) _ info

/-! ## Reachable states -/

/-- The invariant holds at reset, and every operation of the host and every step of the engine keeps it. -/
theorem Reachable.inv {s : State} (h : Reachable s) : s.Inv := by
  induction h with
  | reset f => exact inv_resetWith f
  | host s op _ ih => exact (hostStep_effect op s).keeps_inv ih
  | engine s t _ hstep ih => exact stepKeepsTheInvariant s t ih hstep

/-- A word fetched from a store that was checked at load decodes (R59). -/
theorem State.Inv.decode_of_fetched {s : State} (hi : s.Inv) {i : Int} {w : Word}
    (hw : progFetch s i = some w) : ∃ instr, decode w = .ok instr :=
  wordLegal_iff.mp (hi.progLegal w (List.mem_of_getElem? (progFetch_eq_some.mp hw).2))

/-- The second line of R121 is never reached: the decoder accepts the fetched word, and what it yields is
well-formed. -/
theorem State.Inv.step_not_configurationError {s t : State} (hi : s.Inv) (h : step s = .next t) :
    t.fault.kind ≠ .configurationError := by
  obtain ⟨hs, ⟨w, i, -, hd, he⟩ | ⟨-, rfl⟩ | ⟨w, r, hw, hd, -⟩⟩ := step_next_cases h
  · have hclear : s.fault.kind = .none := by
      by_contra hk
      cases hs.symm.trans (hi.faultedIffRecorded.mpr hk)
    exact he.not_configurationError (wellFormed_of_decode hd) (by rw [hclear]; decide)
  · exact nofun
  · obtain ⟨i, hi'⟩ := hi.decode_of_fetched hw
    cases hd.symm.trans hi'

/-! ## Host arguments out of range -/

theorem hostBind_badLabel {s : State} (hr : s.run = .loading) {n : Int} (hn : n < 0 ∨ 512 ≤ n) (v : Word) :
    hostBind s n v = (.refused, refusedLoad s (.argument n)) := by
  have hbad : ¬ labelLegal n := by simp only [labelLegal, Config.numLabels]; omega
  exact (if_neg fun h => hbad h.2).trans (hostRefuse_loading hr _)

/-! ## The obligations -/

/-- Settles O44: the invariant by induction over the operations and steps (`Reachable.inv`), and what it says of
the fetched word. -/
theorem reachableStatesAreSound : Obligations.ReachableStatesAreSound := by
  intro s h
  exact ⟨h.inv, fun _ => h.inv.decode_of_fetched, fun _ _ => h.inv.step_not_configurationError⟩

/-- Settles O37: the cases of `step_next_cases` are the checks in their order, and a decoded instruction is
well-formed, so its fault is that of its label or of its address. -/
theorem stepFaultsArePreciseAndOrdered : Obligations.StepFaultsArePreciseAndOrdered := by
  refine ⟨fun s w r hr hw hd => step_of_decode_error hr hw hd, fun s t h ht => ?_⟩
  obtain ⟨hs, ⟨w, i, hw, hd, he⟩ | hfetch | hdecode⟩ := step_next_cases h
  · have hf : Fetches s i := ⟨w, hw, hd⟩
    rcases he.fault_of_faulted hs (wellFormed_of_decode hd) ht with
      ⟨l, hl, hn, rfl⟩ | ⟨l, a, hu, hl, ha, hneg, rfl⟩
    · exact .inr (.inr (.inl ⟨i, l, hf, hl, hn, rfl⟩))
    · exact .inr (.inr (.inr ⟨i, l, a, hf, hu, hl, ha, hneg, rfl⟩))
  · exact .inl hfetch
  · exact .inr (.inl hdecode)

/-- Settles O35: `step_of_decoded`. -/
theorem stepRunsTheDecodedInstruction : Obligations.StepRunsTheDecodedInstruction :=
  fun _ _ _ => step_of_decoded

/-- Settles O50: the range check of each operation fails, and a refusal in Loading is the record of R121. -/
theorem badHostArgumentsAreConfigurationErrors : Obligations.BadHostArgumentsAreConfigurationErrors := by
  intro s n v hr
  refine ⟨fun hn => ?_, fun hn => ⟨hostBind_badLabel hr hn _, hostBind_badLabel hr hn v⟩⟩
  have hbad : ¬ addressLegal n := by simp only [addressLegal, Config.memCells]; omega
  exact ⟨(if_neg fun h => hbad h.2).trans (hostRefuse_loading hr _),
    (if_neg fun h => hbad h.2).trans (hostRefuse_loading hr _)⟩

end Sys2Proof.Machine

/-! # Proofs of the reset and hazards family (spec/70_reset_and_hazards.md)

What an operation of the host leaves is `HostEffect`; here stand its replies, per guard of the operations, and what
follows of a sequence of operations: before the engine's first step the registers and `pc` are as reset left them. -/

namespace Sys2Proof.Machine

/-! ## When the engine has a next state -/

/-- The running engine always has a next state: a fault is one too (R126). -/
theorem exists_step_of_running {s : State} (h : s.run = .running) : ∃ t, step s = .next t := by
  rcases step_running_cases h with ⟨w, i, -, -, hs⟩ | ⟨-, hs⟩ | ⟨w, r, -, -, hs⟩
  · obtain ⟨t, ht, -⟩ := exec_effect i s
    exact ⟨t, hs.trans ht⟩
  · exact ⟨_, hs⟩
  · exact ⟨_, hs⟩

theorem step_of_loading {s : State} (h : s.run = .loading) : step s = .fault .notStarted :=
  step_of_whyStopped (by simp only [whyStopped, h])

theorem step_of_faulted {s : State} (h : s.run = .faulted) : step s = .fault (.faulted s.fault) :=
  step_of_whyStopped (by simp only [whyStopped, h])

/-! ## The replies of the host's operations, by RUN -/

/-- Outside Loading a refusal changes nothing (R121, C14). -/
theorem hostRefuse_outside {s : State} (h : s.run ≠ .loading) (info : FaultInfo) :
    hostRefuse s info = (.refused, s) :=
  congrArg (Prod.mk HostReply.refused) (if_neg h)

/-- An operation of the load phase, whatever else it checks, is refused outside Loading (R162). -/
theorem loadPhase_outside {s : State} (h : s.run ≠ .loading) {p : Prop} [Decidable p]
    (accepted : HostReply × State) (info : FaultInfo) :
    (if s.run = .loading ∧ p then accepted else hostRefuse s info) = (.refused, s) :=
  (if_neg fun hp => h hp.1).trans (hostRefuse_outside h info)

theorem hostAppendWord_outside {s : State} (h : s.run ≠ .loading) (w : Word) :
    hostAppendWord s w = (.refused, s) :=
  loadPhase_outside h _ _

theorem hostAppendInstr_outside {s : State} (h : s.run ≠ .loading) (i : Instr) :
    hostAppendInstr s i = (.refused, s) := by
  unfold hostAppendInstr
  split
  · exact hostAppendWord_outside h _
  · exact hostRefuse_outside h _

theorem hostBind_outside {s : State} (h : s.run ≠ .loading) (l : Int) (v : Word) :
    hostBind s l v = (.refused, s) :=
  loadPhase_outside h _ _

theorem hostSetMemory_outside {s : State} (h : s.run ≠ .loading) (a : Int) (v : Word) :
    hostSetMemory s a v = (.refused, s) :=
  loadPhase_outside h _ _

theorem hostBegin_outside {s : State} (h : s.run ≠ .loading) : hostBegin s = (.refused, s) :=
  if_neg h

theorem hostAppendWord_legal {s : State} (hr : s.run = .loading) {w : Word} (hw : wordLegal w = true)
    (hroom : progLen s < Config.progMax) :
    hostAppendWord s w = (.index (progLen s), { s with prog := s.prog ++ [w] }) :=
  if_pos ⟨hr, hw, hroom⟩

theorem hostAppendWord_refused {s : State} (hr : s.run = .loading) {w : Word}
    (h : ¬ (wordLegal w = true ∧ progLen s < Config.progMax)) :
    hostAppendWord s w = (.refused, refusedLoad s (.word w)) :=
  (if_neg fun hp => h hp.2).trans (hostRefuse_loading hr _)

theorem hostReset_outside_running {s : State} (h : s.run ≠ .running) (f : Word) :
    hostReset s f = (.done, State.resetWith f) :=
  if_neg h

theorem hostGetMemory_outside_running {s : State} (h : s.run ≠ .running) {a : Nat} (ha : a < 65536) :
    hostGetMemory s a = (.value (memRead s a), s) :=
  if_pos ⟨h, Int.natCast_nonneg a, Int.ofNat_lt.mpr ha⟩

theorem hostInspect_ended {s : State} (h : runEnded s) (reply : HostReply) :
    hostInspect s reply = (reply, s) :=
  congrArg (Prod.mk · s) (if_pos h)

theorem hostInspect_not_ended {s : State} (h : ¬ runEnded s) (reply : HostReply) :
    hostInspect s reply = (.refused, s) :=
  congrArg (Prod.mk · s) (if_neg h)

theorem not_running_of_ended {s : State} (h : runEnded s) : s.run ≠ .running := by
  rcases h with hr | hr <;> rw [hr] <;> decide

/-- While the engine runs the host has no operation (R162). -/
theorem hostStep_running {s : State} (h : s.run = .running) (op : HostOp) :
    hostStep op s = (.refused, s) := by
  have hload : s.run ≠ .loading := by rw [h]; decide
  have hended : ¬ runEnded s := fun he => not_running_of_ended he h
  cases op with
  | reset f => exact if_pos h
  | appendWord w => exact hostAppendWord_outside hload w
  | appendInstr i => exact hostAppendInstr_outside hload i
  | bindPositionLabel l | bindConstantLabel l => exact hostBind_outside hload l _
  | setMemory a v => exact hostSetMemory_outside hload a v
  | getMemory a => exact (if_neg fun hp => hp.1 h).trans (hostRefuse_outside hload _)
  | beginExecution => exact hostBegin_outside hload
  | readRegister | readRun | readPc | readFault => exact hostInspect_not_ended hended _

/-! ## What the effect of a host operation leaves -/

section HostEffect

variable {op : HostOp} {s t : State}

/-- Outside Loading only reset has an effect (R121, R162). -/
theorem HostEffect.eq_outside (he : HostEffect op s t) (hr : s.run ≠ .loading)
    (hop : ∀ f, op ≠ .reset f) : t = s := by
  cases he with
  | unchanged => rfl
  | reset f hf => exact absurd hf (hop f)
  | append _ _ hl | bind _ _ hl | seed _ _ hl | start hl | refused _ hl => exact absurd hl hr

/-- Apart from reset, only the append operations change the store, by one legal word at its end (R151). -/
theorem HostEffect.prog_cases (he : HostEffect op s t) (hop : ∀ f, op ≠ .reset f) :
    t.prog = s.prog ∨ ((∃ w, op = .appendWord w) ∨ ∃ i, op = .appendInstr i) ∧
      ∃ w i, decode w = .ok i ∧ t.prog = s.prog ++ [w] := by
  cases he with
  | reset f hf => exact absurd hf (hop f)
  | append w happ _ hw =>
    obtain ⟨i, hi⟩ := wordLegal_iff.mp hw
    exact .inr ⟨happ, w, i, hi, rfl⟩
  | unchanged | bind | seed | start | refused => exact .inl rfl

/-- Only reset writes the flag (R155). -/
theorem HostEffect.flag_eq (he : HostEffect op s t) (hop : ∀ f, op ≠ .reset f) : t.flag = s.flag := by
  cases he with
  | reset f hf => exact absurd hf (hop f)
  | unchanged | append | bind | seed | start | refused => rfl

end HostEffect

/-! ## From reset to the launch state -/

/-- No instruction has run since reset: registers and `pc` are as reset left them (R155). -/
structure State.Untouched (s : State) : Prop where
  regs : s.regs = Vector.replicate 8 0
  pc : s.pc = 0

theorem untouched_resetWith (f : Word) : (State.resetWith f).Untouched := ⟨rfl, rfl⟩

theorem HostEffect.keeps_untouched {op : HostOp} {s t : State} (he : HostEffect op s t)
    (h : s.Untouched) : t.Untouched := by
  cases he with
  | reset f => exact untouched_resetWith f
  | start => exact ⟨h.regs, rfl⟩
  | unchanged | append | bind | seed | refused => exact ⟨h.regs, h.pc⟩

/-- What every operation of a sequence keeps, the sequence keeps. -/
theorem hostRun_keeps (P : State → Prop) {ops : List HostOp}
    (hop : ∀ op ∈ ops, ∀ s, P s → P (hostStep op s).2) {s : State} (h : P s) : P (hostRun ops s) := by
  induction ops generalizing s with
  | nil => exact h
  | cons op ops ih =>
    obtain ⟨hhead, htail⟩ := List.forall_mem_cons.mp hop
    exact ih htail (hhead s h)

/-- A started engine in which no instruction has run is in a launch state: the invariant leaves no record
outside Faulted (R155). -/
theorem State.Inv.launch {s : State} (hi : s.Inv) (hu : s.Untouched) (hr : s.run = .running) :
    s.Launch where
  regsZero r := (readReg_of_regs hu.regs r).trans (readReg_resetWith 0 r)
  pcZero := hu.pc
  isRunning := hr
  faultClear := by
    have hnot : s.run ≠ .faulted := by rw [hr]; decide
    exact hi.unrecordedIsClear (not_not.mp (mt hi.faultedIffRecorded.mpr hnot))

/-! ## The obligations -/

/-- Settles O43: what an operation can leave (`hostStep_effect`) meets the invariant. -/
theorem hostOperationsKeepTheInvariant : Obligations.HostOperationsKeepTheInvariant :=
  fun op s hi => (hostStep_effect op s).keeps_inv hi

/-- Settles O51: the sequence keeps the invariant and `State.Untouched`, which make a running engine's state a
launch state; without a further reset it keeps the flag. -/
theorem loadingEndsInALaunchState : Obligations.LoadingEndsInALaunchState := by
  intro ops f hr
  have hinv : (hostRun ops (State.resetWith f)).Inv :=
    hostRun_keeps State.Inv (fun op _ => hostOperationsKeepTheInvariant op) (inv_resetWith f)
  have huntouched : (hostRun ops (State.resetWith f)).Untouched :=
    hostRun_keeps State.Untouched (fun op _ s => (hostStep_effect op s).keeps_untouched)
      (untouched_resetWith f)
  refine ⟨hinv.launch huntouched hr, fun hno => hostRun_keeps (·.flag = f) (fun op hmem s hs => ?_) rfl⟩
  exact ((hostStep_effect op s).flag_eq fun g hg => hno g (hg ▸ hmem)).trans hs

/-- Settles O36: `step` is a function, so its one next state is unique; it has one while Running
(`exists_step_of_running`) and only then (`running_of_step_next`). -/
theorem engineStepsExactlyWhileRunning : Obligations.EngineStepsExactlyWhileRunning := by
  refine fun s => ⟨⟨fun ⟨_, ht, _⟩ => running_of_step_next ht, fun hr => ?_⟩, step_of_loading,
    step_of_halted, step_of_faulted⟩
  obtain ⟨t, ht⟩ := exists_step_of_running hr
  exact ⟨t, ht, fun u hu => Host.Outcome.next.inj (hu.symm.trans ht)⟩

/-- Settles O46: the guards of the two append operations in and outside Loading, and the store after any
operation by `HostEffect.prog_cases`. -/
theorem appendInstructionExtendsTheStore : Obligations.AppendInstructionExtendsTheStore := by
  refine ⟨fun s w hr => ⟨fun hok hroom => ?_, fun hbad => ?_, fun i hi => if_pos hi, fun i hi => ?_⟩,
    fun s w i hr => ⟨hostAppendWord_outside hr w, hostAppendInstr_outside hr i⟩,
    fun s op hop => (hostStep_effect op s).prog_cases hop, fun s op hop hword hinstr => ?_⟩
  · exact hostAppendWord_legal hr (wordLegal_iff.mpr hok) hroom
  · refine hostAppendWord_refused hr fun ⟨hw, hroom⟩ => ?_
    obtain ⟨i, hi⟩ := wordLegal_iff.mp hw
    rcases hbad with ⟨r, hd⟩ | hfull
    · cases hi.symm.trans hd
    · exact absurd hroom (Nat.not_lt.mpr hfull)
  · exact (if_neg (Bool.eq_false_iff.mp hi)).trans (hostRefuse_loading hr _)
  · rcases (hostStep_effect op s).prog_cases hop with hsame | ⟨⟨w, hw⟩ | ⟨i, hi⟩, -⟩
    · exact hsame
    · exact absurd hw (hword w)
    · exact absurd hi (hinstr i)

/-- Settles O47: in Loading both bindings are `symBind`, of the wrapped store length or of the literal. -/
theorem bindingSetsTheLabel : Obligations.BindingSetsTheLabel := by
  intro s l v
  have hbinds (u : Word) (hr : s.run = .loading) :
      ∃ t, hostBind s l.val u = (.done, t) ∧ (∃ y, t = { s with sym := y }) ∧
        ∀ k, symResolve t k = if k = l then some u else symResolve s k := by
    refine ⟨symBind s l.val u, hostBind_loading hr l u, ⟨_, rfl⟩, fun k => ?_⟩
    simp only [symResolve_symBind, Fin.ext_iff]
  refine ⟨fun hr => ⟨hbinds _ hr, hbinds v hr⟩, rfl, fun hlen => ?_, fun hfull => ?_,
    fun hr => ⟨hostBind_outside hr _ _, hostBind_outside hr _ _⟩⟩
  · exact s16_wrap16 (by omega) (by omega)
  · rw [hfull]
    decide

/-- Settles O48: in Loading `setMemory` is `memWrite`, and the start writes `pc` and RUN. -/
theorem seedingAndStarting : Obligations.SeedingAndStarting := by
  intro s a v ha
  refine ⟨fun hr => ⟨⟨memWrite s a v, hostSetMemory_loading hr ha v, ⟨_, rfl⟩, fun x => ?_⟩, if_pos hr⟩,
    fun hr => ⟨hostSetMemory_outside hr _ v, hostBegin_outside hr⟩⟩
  exact memRead_memWrite s a x v

/-- Settles O49: `hostStep_running`, `HostEffect.eq_outside`, and reset where the engine does not run. -/
theorem hostNeverAltersARun : Obligations.HostNeverAltersARun := by
  intro op s
  refine ⟨fun hr => hostStep_running hr op, fun hr => (hostStep_effect op s).eq_outside hr,
    fun f hended => hostReset_outside_running (not_running_of_ended hended) f,
    fun f hr => hostReset_outside_running ?_ f⟩
  rw [hr]; decide

/-- Settles O52: `getMemory` reads wherever the engine does not run, the inspections where the run has ended. -/
theorem hostInspectsAfterTheRun : Obligations.HostInspectsAfterTheRun := by
  refine ⟨fun s a hr ha => hostGetMemory_outside_running ?_ ha, fun s a r hended ha =>
    ⟨hostGetMemory_outside_running (not_running_of_ended hended) ha, hostInspect_ended hended _,
      hostInspect_ended hended _, hostInspect_ended hended _, hostInspect_ended hended _⟩⟩
  rw [hr]; decide

end Sys2Proof.Machine
